-- ==== Sys2Proof/Config.lean ====
section
/-! DEFINITION. The parameters of the hardware (00_scope.md R5), each with the value this hardware takes.
The other parameters of R5 are the types of Word.lean and State.lean: `CELLW = PCW = 8` are the widths of `Byte` and `Pc`,
`NREGS = 8` is the size of the register file; `OVERFLOW` (wrap) is `narrow`, `SIGNED` (no) is the use of `toNat` in
`Flags.compare`, and `IMAGE` is the argument of `boot`. -/

namespace Sys2Proof

/-- A value the parameter `XLEN` may take: a register width in bits of at least 8, "so that the 8-bit immediate of LDI
always fits" (R5). The register type, the state and every operation of the machine take it as the argument `xlen`. -/
structure Xlen where
  /-- The width in bits. -/
  bits : Nat
  /-- R5: `XLEN >= 8`. -/
  eight_le : 8 ≤ bits
  deriving DecidableEq, Repr

namespace Config

/-- `XLEN` of this hardware, and the default of every `xlen` argument: 8 (R5, R21; the spec's decision D1; log 1). -/
abbrev xlen : Xlen := { bits := 8, eight_le := by decide }

/-- `ISIZE`: number of cells of the Instruction Store (R5, R32); addresses run from 0 to `isize - 1`. -/
def isize : Nat := 256

/-- `ILEN_MAX`: length in bytes of the longest instruction (R5, R60). -/
def ilenMax : Nat := 3

@[simp] theorem isize_eq : isize = 256 := rfl

@[simp] theorem ilenMax_eq : ilenMax = 3 := rfl

end Config

end Sys2Proof
end

