-- ==== Sys2Proof/Word.lean ====
section
/-! DEFINITION. The machine's bit-vector types (00_scope.md section 7, "Widths"). -/

namespace Sys2Proof

/-- An Instruction Store cell: an unsigned number of `CELLW = 8` bits (10_state.md R32). -/
abbrev Byte := BitVec 8

/-- A general register's content: an unsigned number of `XLEN` bits (10_state.md R21). -/
abbrev Word (xlen : Xlen := Config.xlen) := BitVec xlen.bits

/-- The program counter's content, `PCW = 8` bits (10_state.md R24). -/
abbrev Pc := BitVec 8

/-- The number of a general register, R0 to R7: `NREGS = 8` (10_state.md R20). -/
abbrev RegIndex := Fin 8

end Sys2Proof
end

