-- ==== Sys2Proof/Syntax.lean ====
section
/-! DEFINITION. The nine instructions (30_encoding.md R62, R67), one constructor per row of the opcode table. -/

namespace Sys2Proof

/-- An instruction with its operand bytes. A register operand is the WHOLE operand byte (R63): a byte above 7
can stand there, and the instruction then raises `RegisterIndexOutOfRange` when it is executed (R85, R182). -/
inductive Instr where
  /-- HLT: halt (R110). -/
  | hlt
  /-- LDI Rr,imm: load the immediate byte into register r (R100). -/
  | ldi (r imm : Byte)
  /-- PRN Rr: hand register r to the Output Sink (R101). -/
  | prn (r : Byte)
  /-- ADD Ra,Rb: add register b into register a (R126). -/
  | add (a b : Byte)
  /-- MUL Ra,Rb: multiply register a by register b (R127). -/
  | mul (a b : Byte)
  /-- CMP Ra,Rb: compare registers a and b (R125). -/
  | cmp (a b : Byte)
  /-- JMP Rr: jump to the address in register r (R131). -/
  | jmp (r : Byte)
  /-- JEQ Rr: jump if `FL.E` is 1 (R132). -/
  | jeq (r : Byte)
  /-- JNE Rr: jump if `FL.E` is 0 (R133). -/
  | jne (r : Byte)
  deriving DecidableEq, Repr

end Sys2Proof
end

