-- ==== Sys2Proof/WellFormed.lean ====
section
/-! DEFINITION. Which instructions have valid operands (30_encoding.md R63, R64). -/

namespace Sys2Proof

/-- The operand bytes an instruction uses as register indices, in the order they are checked (40_cycle.md R85).
LDI's second operand is an immediate and is not among them. -/
def Instr.indexOperands : Instr → List Byte
  | .hlt => []
  | .ldi r _ => [r]
  | .prn r => [r]
  | .add a b => [a, b]
  | .mul a b => [a, b]
  | .cmp a b => [a, b]
  | .jmp r => [r]
  | .jeq r => [r]
  | .jne r => [r]

/-- Every register operand is 0 to 7 (R63); an immediate has no invalid value (R64). -/
def Instr.wellFormed (i : Instr) : Bool :=
  i.indexOperands.all fun r => decide (r.toNat < 8)

end Sys2Proof
end

