-- ==== Sys2Proof/Decode.lean ====
section
/-! DEFINITION. The opcode map, the decoder and the encoder (30_encoding.md). -/

namespace Sys2Proof

/-- The nine operations of the opcode map (R67). -/
inductive Opcode where
  | hlt | ldi | prn | add | mul | cmp | jmp | jeq | jne
  deriving DecidableEq, Repr

/-- The opcode byte of each operation, in the binary of the source's table (R67). -/
def Opcode.byte : Opcode → Byte
  | .hlt => 0b00000001#8
  | .ldi => 0b10000010#8
  | .prn => 0b01000111#8
  | .add => 0b10100000#8
  | .mul => 0b10100010#8
  | .cmp => 0b10100111#8
  | .jmp => 0b01010100#8
  | .jeq => 0b01010101#8
  | .jne => 0b01010110#8

/-- `SUPPORTED` (R67): the closed set of operations, in the table's order. -/
def Opcode.supported : List Opcode :=
  [.hlt, .ldi, .prn, .add, .mul, .cmp, .jmp, .jeq, .jne]

/-- Decode of an opcode byte: the WHOLE byte is matched (R67, R70, R82); none for the other 247 values (R68). -/
def Opcode.ofByte? (b : Byte) : Option Opcode :=
  Opcode.supported.find? fun o => o.byte == b

/-- `n = opcode[7:6]`, the operand-count field (R60, R61). -/
def operandCount (opcode : Byte) : Nat :=
  (opcode >>> 6).toNat

/-- What the decoder answers. -/
inductive Decoded where
  /-- An instruction, and the bytes after it. -/
  | ok (i : Instr) (rest : List Byte)
  /-- The opcode byte is not one of the nine (R68). -/
  | unsupported (opcode : Byte)
  /-- The opcode is supported and its operand bytes are missing (the case R83 names), or there is no byte at all. -/
  | truncated
  deriving DecidableEq, Repr

/-- The decoder (R60, R62, R67): the opcode byte first, then its operand bytes in ascending address order. An
unsupported opcode is refused on that byte alone, whatever follows (R69, R82). -/
def decode : List Byte → Decoded
  | [] => .truncated
  | op :: operands =>
    match Opcode.ofByte? op, operands with
    | none, _ => .unsupported op
    | some .hlt, rest => .ok .hlt rest
    | some .ldi, r :: imm :: rest => .ok (.ldi r imm) rest
    | some .prn, r :: rest => .ok (.prn r) rest
    | some .add, a :: b :: rest => .ok (.add a b) rest
    | some .mul, a :: b :: rest => .ok (.mul a b) rest
    | some .cmp, a :: b :: rest => .ok (.cmp a b) rest
    | some .jmp, r :: rest => .ok (.jmp r) rest
    | some .jeq, r :: rest => .ok (.jeq r) rest
    | some .jne, r :: rest => .ok (.jne r) rest
    | some _, _ => .truncated

/-- The operation of an instruction. -/
def Instr.opcode : Instr → Opcode
  | .hlt => .hlt
  | .ldi _ _ => .ldi
  | .prn _ => .prn
  | .add _ _ => .add
  | .mul _ _ => .mul
  | .cmp _ _ => .cmp
  | .jmp _ => .jmp
  | .jeq _ => .jeq
  | .jne _ => .jne

/-- The operand bytes of an instruction, in memory order (R62). -/
def Instr.operandBytes : Instr → List Byte
  | .hlt => []
  | .ldi r imm => [r, imm]
  | .prn r => [r]
  | .add a b => [a, b]
  | .mul a b => [a, b]
  | .cmp a b => [a, b]
  | .jmp r => [r]
  | .jeq r => [r]
  | .jne r => [r]

/-- The encoder: the bytes of an instruction at ascending addresses (R62, R72). -/
def encode (i : Instr) : List Byte :=
  i.opcode.byte :: i.operandBytes

/-- The bytes of an instruction given as one number, bit 0 the least significant bit of the first byte; every bit
from `nbits` up is 0. As many bytes as the longest instruction has (R5). -/
def tableBytes (nbits w : Nat) : List Byte :=
  (List.range Config.ilenMax).map fun k => BitVec.ofNat 8 ((w % 2 ^ nbits) >>> (8 * k))

/-- The instruction the decoder reads from the bytes of `w`, numbered as spec/opcode_table.json numbers them. -/
def decodeTableWord (nbits w : Nat) : Option Instr :=
  match decode (tableBytes nbits w) with
  | .ok i _ => some i
  | .unsupported _ => none
  | .truncated => none

end Sys2Proof
end

