-- ==== Sys2Proof/Machine/State.lean ====
section
/-! DEFINITION. The machine's state, its reset value, and the ways a step can stop (10_state.md, 60_exceptions.md). -/

namespace Sys2Proof.Machine

/-- The four fault causes of the machine (60_exceptions.md R141): the causes a FAULTED status records. -/
inductive Cause where
  /-- The opcode byte is not one of the nine supported values (R82). -/
  | unsupportedOperation
  /-- A supported opcode's operand bytes would lie above address 255 (R83). -/
  | operandFetchOutOfRange
  /-- An operand byte used as a register index is above 7 (R85). -/
  | registerIndexOutOfRange
  /-- The next pc would be above 255 (R89, R134). -/
  | pcOutOfRange
  deriving DecidableEq, Repr

/-- The lifecycle status (10_state.md R30). -/
inductive Status where
  /-- The only status with a step. -/
  | running
  /-- Terminal: entered only by HLT. -/
  | halted
  /-- Terminal: entered only by a step that raises a fault; the cause and its information value (R141). -/
  | faulted (cause : Cause) (info : Nat)
  deriving DecidableEq, Repr

/-- The three comparison flags `FL.E`, `FL.L`, `FL.G`: booleans with no bit layout (10_state.md R27, R29). -/
structure Flags where
  /-- `FL.E`, equal. -/
  e : Bool
  /-- `FL.L`, less-than. -/
  l : Bool
  /-- `FL.G`, greater-than. -/
  g : Bool
  deriving DecidableEq, Repr

/-- The Instruction Store as (address, byte) pairs in the canonical form `Memory.wf`; an unlisted cell holds 0, as
the store is zero-filled (10_state.md R32, R36). -/
abbrev Memory := List Host.Cell

/-- The whole architectural state (10_state.md, opening record) of a machine whose registers have `XLEN` bits: `XLEN` is
a named argument with default 8 (00_scope.md R5), so that `State` alone is the state of this hardware. -/
structure State (xlen : Xlen := Config.xlen) where
  /-- General registers R0 to R7 (R20, R21). -/
  x : Vector (Word xlen) 8
  /-- Program counter: address of the next opcode byte (R24). -/
  pc : Pc
  /-- Comparison flags (R27). -/
  fl : Flags
  /-- Lifecycle status (R30). -/
  status : Status
  /-- Instruction Store (R32). -/
  imem : Memory
  /-- Output trace, oldest value first (R33). -/
  out : List (Word xlen)
  deriving DecidableEq, Repr

/-- Why a step gives no next state. The machine's own faults are NOT here: raising one is a next state whose status
is FAULTED (R140). These two are the stuck states of R90, safe: no step exists, so nothing can be proved of one. -/
inductive Fault where
  /-- Raised by `fetch` on a HALTED machine: "no further cycles execute" (40_cycle.md R90, 42_halt.md R110). Safe. -/
  | noStepWhenHalted
  /-- Raised by `fetch` on a FAULTED machine (40_cycle.md R90, 60_exceptions.md R149). Safe. -/
  | noStepWhenFaulted
  deriving DecidableEq, Repr

/-- What the model turns away. -/
inductive Refusal where
  /-- Raised only by an arm of `exec` that has no meaning yet; there is none. Safe. -/
  | notModelled (mnemonic : String)
  /-- Raised by `boot` and `hostReset` on an image of more than 256 bytes (70_reset_and_hazards.md R173). Safe. -/
  | imageTooLong (length : Nat)
  deriving DecidableEq, Repr

/-- The three outcomes of a step of this machine. -/
abbrev Result (xlen : Xlen := Config.xlen) := Host.Outcome (State xlen) Fault Refusal

/-- The state after construction with nothing loaded (10_state.md R36, 70_reset_and_hazards.md R170). -/
def State.construct (xlen : Xlen := Config.xlen) : State xlen where
  x := Vector.replicate 8 0
  pc := 0
  fl := ⟨false, false, false⟩
  status := .running
  imem := []
  out := []

/-- The state of this hardware after reset with nothing loaded (R36, R170). -/
def State.reset : State :=
  State.construct

end Sys2Proof.Machine
end

