-- ==== Sys2Proof/Machine/Flags.lean ====
section
/-! DEFINITION. The one flag computation of the machine: what CMP does to the flags (43_alu.md R125, R122). -/

namespace Sys2Proof.Machine

variable {xlen : Xlen}

/-- CMP's effect on the flags: the flag whose relation holds between the two values, read as unsigned numbers (R122),
becomes 1; the other two keep their old values (R27, R125; 90_conflicts.md C1). -/
def Flags.compare (f : Flags) (a b : Word xlen) : Flags :=
  if a = b then { f with e := true }
  else if a.toNat > b.toNat then { f with g := true }
  else { f with l := true }

end Sys2Proof.Machine
end

