-- ==== Sys2Proof/Machine/Memory.lean ====
section
/-! DEFINITION. The Instruction Store: reading a cell, the host's writing of one, and the loaded image
(10_state.md R32, 20_memory.md, 70_reset_and_hazards.md R173). -/

namespace Sys2Proof.Machine

/-- The one canonical form: addresses strictly rising, every address in the store, no cell listed that holds 0. -/
abbrev Memory.wf (m : Memory) : Prop :=
  m.Pairwise (fun c d => c.1 < d.1) ∧ ∀ c ∈ m, c.1 < Config.isize ∧ c.2 ≠ 0

/-- The byte in cell `addr` (`MemRead(addr, 1)`, 00_scope.md section 7). An unlisted cell holds 0 (R36). No rule
reads above 255 (R46): `fetchBytes` tests the address first. -/
def Memory.read : Memory → Nat → Byte
  | [], _ => 0
  | (b, v) :: m, addr => if b = addr then v else Memory.read m addr

/-- Takes cell `addr` off the list. -/
def Memory.erase : Memory → Nat → Memory
  | [], _ => []
  | (b, v) :: m, addr => if b = addr then m else (b, v) :: Memory.erase m addr

/-- Lists the nonzero byte `v` for `addr`, in place. -/
def Memory.insert : Memory → Nat → Byte → Memory
  | [], addr, v => [(addr, v)]
  | (b, u) :: m, addr, v =>
    if addr < b then (addr, v) :: (b, u) :: m
    else if addr = b then (addr, v) :: m
    else (b, u) :: Memory.insert m addr v

/-- The HOST's write of one cell before a run (00_scope.md R7). No instruction writes the store (20_memory.md R44)
and there is no cell above 255 to write (R46). -/
def Memory.write (m : Memory) (addr : Nat) (v : Byte) : Memory :=
  if addr < Config.isize then (if v = 0 then m.erase addr else m.insert addr v) else m

/-- The host's write of consecutive cells from `addr` upward. -/
def Memory.writeBytes (m : Memory) (addr : Nat) : List Byte → Memory
  | [] => m
  | v :: vs => Memory.writeBytes (m.write addr v) (addr + 1) vs

/-- The store a program of these bytes leaves when it is loaded at `base`: its nonzero bytes, all else 0 (R173). -/
def Memory.ofBytesAt (base : Nat) : List Byte → Memory
  | [] => []
  | v :: vs => if v = 0 then Memory.ofBytesAt (base + 1) vs else (base, v) :: Memory.ofBytesAt (base + 1) vs

end Sys2Proof.Machine
end

