-- ==== Sys2Proof/Machine/Operands.lean ====
section
/-! DEFINITION. What an operand byte stands for (30_encoding.md section 2). -/

namespace Sys2Proof.Machine

variable {xlen : Xlen}

/-- A register-index operand: the whole byte, valid when it is 0 to 7; never masked (R63). -/
def regIndex? (operand : Byte) : Option RegIndex :=
  if h : operand.toNat < 8 then some ⟨operand.toNat, h⟩ else none

/-- An immediate operand: the whole byte, zero-extended to `XLEN` bits (R64). -/
def immediate (operand : Byte) : Word xlen :=
  operand.setWidth xlen.bits

end Sys2Proof.Machine
end

