-- ==== Sys2Proof/Machine/Ops.lean ====
section
/-! DEFINITION. The operations the instructions share: register and output access, raising a fault, the operand
checks, and the two ways the pc moves (00_scope.md section 7, 40_cycle.md R80, 60_exceptions.md R140). -/

namespace Sys2Proof.Machine

variable {xlen : Xlen}

/-- `x[i]`: read of a general register; no side effect (10_state.md R23). -/
def State.reg (s : State xlen) (i : RegIndex) : Word xlen :=
  s.x[i]

/-- `x[i] <- v`: changes one register and nothing else (10_state.md R23). -/
def State.setReg (s : State xlen) (i : RegIndex) (v : Word xlen) : State xlen :=
  { s with x := s.x.set i v }

/-- Write of the flags. -/
def State.setFlags (s : State xlen) (f : Flags) : State xlen :=
  { s with fl := f }

/-- `Emit(v)`: append `v` to the output trace; the sink always accepts (00_scope.md R9). -/
def State.emit (s : State xlen) (v : Word xlen) : State xlen :=
  { s with out := s.out ++ [v] }

/-- Write of the program counter. -/
def State.setPc (s : State xlen) (p : Pc) : State xlen :=
  { s with pc := p }

/-- Write of the lifecycle status. -/
def State.setStatus (s : State xlen) (st : Status) : State xlen :=
  { s with status := st }

/-- `raise C(info)`, the machine's one exception mechanism: the whole effect is the status FAULTED(C, info); nothing
is saved, no handler is entered, and what was done before stands (R140). There is no return from it (R149): only
`hostReset` leaves FAULTED. -/
def raise (c : Cause) (info : Nat) (s : State xlen) : Result xlen :=
  .next (s.setStatus (.faulted c info))

/-- The numeric code of a cause (R141); no program can observe it. -/
def Cause.code : Cause → Nat
  | .unsupportedOperation => 1
  | .operandFetchOutOfRange => 2
  | .registerIndexOutOfRange => 3
  | .pcOutOfRange => 4

/-- Item 3 of the step (R83): an instruction with `n` operand bytes needs the cells `pc + 1` to `pc + n`; above 255
it raises `OperandFetchOutOfRange(pc)` before any effect. -/
def withOperands (n : Nat) (s : State xlen) (k : Result xlen) : Result xlen :=
  if s.pc.toNat + n ≥ Config.isize then raise .operandFetchOutOfRange s.pc.toNat s else k

/-- Item 5 of the step (R85): goes on with the register the operand byte names, or raises
`RegisterIndexOutOfRange(byte)` before any effect. -/
def withReg (operand : Byte) (s : State xlen) (k : RegIndex → Result xlen) : Result xlen :=
  match regIndex? operand with
  | some i => k i
  | none => raise .registerIndexOutOfRange operand.toNat s

/-- The default advance (R88): the pc becomes `pc + 1 + n`; where that is above 255 the effect stands, the pc stays
and the step raises `PcOutOfRange(pc + 1 + n)` (R89). -/
def advance (n : Nat) (s : State xlen) : Result xlen :=
  if s.pc.toNat + 1 + n ≥ Config.isize then raise .pcOutOfRange (s.pc.toNat + 1 + n) s
  else .next (s.setPc (BitVec.ofNat 8 (s.pc.toNat + 1 + n)))

/-- A taken transfer to the target `t` (R130): the pc becomes `t`, unadjusted; a target above 255, which needs
registers wider than 8 bits, raises `PcOutOfRange(t)` and is not truncated (R134). -/
def transfer (t : Word xlen) (s : State xlen) : Result xlen :=
  if t.toNat ≥ Config.isize then raise .pcOutOfRange t.toNat s
  else .next (s.setPc (BitVec.ofNat 8 t.toNat))

end Sys2Proof.Machine
end

