-- ==== Sys2Proof/Machine/Boot.lean ====
section
/-! DEFINITION. The host's two actions: loading a program before the run, and reset (00_scope.md R7, R11;
70_reset_and_hazards.md R170 to R173). -/

namespace Sys2Proof.Machine

/-- Construct, then load (R173): the program's bytes from address 0 upward, every other cell 0; a program of more
than 256 bytes is refused. The two parameters of a run, `IMAGE` and `XLEN`, are its arguments (00_scope.md R5). -/
def boot (image : List Byte) (xlen : Xlen := Config.xlen) : Result xlen :=
  if image.length ≤ Config.isize then .next { State.construct xlen with imem := Memory.ofBytesAt 0 image }
  else .refused (.imageTooLong image.length)

/-- Reset of the core in any state, with the image of the next run: nothing of the old state survives (R170, R172).
It is the only way out of HALTED and FAULTED (R149). -/
def hostReset {xlen : Xlen} (image : List Byte) (_s : State xlen) : Result xlen :=
  boot image xlen

end Sys2Proof.Machine
end

