-- ==== Sys2Proof/Machine/Alu.lean ====
section
/-! DEFINITION. The ALU and its three instructions, ADD, MUL and CMP (43_alu.md). -/

namespace Sys2Proof.Machine

variable {xlen : Xlen}

/-- The operations the ALU is handed (R120). -/
inductive AluOp where
  | add | mul | cmp
  deriving DecidableEq, Repr

/-- Narrowing of an exact result to a register: its low `XLEN` bits, silently (R121, R123). -/
def narrow (exact : Nat) : Word xlen :=
  BitVec.ofNat xlen.bits exact

/-- The ALU's contract `execute(op, a, b)` (R120): ADD and MUL write `x[a]`, CMP writes one flag; both registers are
read before anything is written. -/
def aluExecute (op : AluOp) (a b : RegIndex) (s : State xlen) : State xlen :=
  match op with
  | .add => s.setReg a (narrow ((s.reg a).toNat + (s.reg b).toNat))
  | .mul => s.setReg a (narrow ((s.reg a).toNat * (s.reg b).toNat))
  | .cmp => s.setFlags (s.fl.compare (s.reg a) (s.reg b))

/-- The shared part of the three ALU instructions: operand range, operand 1's index, operand 2's index, the ALU, the
default advance (40_cycle.md R80). -/
def aluInstruction (op : AluOp) (a b : Byte) (s : State xlen) : Result xlen :=
  withOperands 2 s (withReg a s fun i => withReg b s fun j => advance 2 (aluExecute op i j s))

/-- ADD Ra,Rb (R126): `x[a] <- (x[a] + x[b]) mod 2^XLEN`. -/
def execAdd (a b : Byte) (s : State xlen) : Result xlen :=
  aluInstruction .add a b s

/-- MUL Ra,Rb (R127): `x[a] <- (x[a] * x[b]) mod 2^XLEN`. -/
def execMul (a b : Byte) (s : State xlen) : Result xlen :=
  aluInstruction .mul a b s

/-- CMP Ra,Rb (R125): sets the one flag whose relation holds. -/
def execCmp (a b : Byte) (s : State xlen) : Result xlen :=
  aluInstruction .cmp a b s

end Sys2Proof.Machine
end

