-- ==== Sys2Proof/Machine/ControlTransfer.lean ====
section
/-! DEFINITION. JMP, JEQ and JNE (44_control_transfer.md). -/

namespace Sys2Proof.Machine

variable {xlen : Xlen}

/-- The shared part of the three control transfers: operand range, index check (taken or not), then the transfer to
`x[r]` if `taken`, else the default advance (R130, R88). -/
def branchInstruction (taken : Bool) (r : Byte) (s : State xlen) : Result xlen :=
  withOperands 1 s (withReg r s fun i => if taken then transfer (s.reg i) s else advance 1 s)

/-- JMP Rr (R131): always taken. -/
def execJmp (r : Byte) (s : State xlen) : Result xlen :=
  branchInstruction true r s

/-- JEQ Rr (R132): taken when `FL.E` is 1. -/
def execJeq (r : Byte) (s : State xlen) : Result xlen :=
  branchInstruction s.fl.e r s

/-- JNE Rr (R133): taken when `FL.E` is 0. -/
def execJne (r : Byte) (s : State xlen) : Result xlen :=
  branchInstruction (!s.fl.e) r s

end Sys2Proof.Machine
end

