-- ==== Sys2Proof/Machine/Halt.lean ====
section
/-! DEFINITION. HLT (42_halt.md). -/

namespace Sys2Proof.Machine

variable {xlen : Xlen}

/-- HLT (R110): status HALTED, and `pc <- (pc + 1) mod 256`, the one wrapping update of the pc; it raises no fault. -/
def execHlt (s : State xlen) : Result xlen :=
  .next ((s.setStatus .halted).setPc (BitVec.ofNat 8 (s.pc.toNat + 1)))

end Sys2Proof.Machine
end

