-- ==== Sys2Proof/Machine/LoadPrint.lean ====
section
/-! DEFINITION. LDI and PRN (41_load_print.md). -/

namespace Sys2Proof.Machine

variable {xlen : Xlen}

/-- LDI Rr,imm (R100): `x[r] <- zext(imm)`, then the default advance. -/
def execLdi (r imm : Byte) (s : State xlen) : Result xlen :=
  withOperands 2 s (withReg r s fun i => advance 2 (s.setReg i (immediate imm)))

/-- PRN Rr (R101): `Emit(x[r])`, then the default advance. -/
def execPrn (r : Byte) (s : State xlen) : Result xlen :=
  withOperands 1 s (withReg r s fun i => advance 1 (s.emit (s.reg i)))

end Sys2Proof.Machine
end

