-- ==== Sys2Proof/Machine/Fetch.lean ====
section
/-! DEFINITION. Fetch and decode: items 1 to 4 of the step (40_cycle.md R80 to R84, R90). -/

namespace Sys2Proof.Machine

variable {xlen : Xlen}

/-- The bytes the engine can fetch for the instruction at the pc: the cells `pc`, `pc + 1`, `pc + 2` that exist; no
address above 255 is read and none wraps to 0 (20_memory.md R46). Reading operand bytes eagerly is allowed (R43). -/
def fetchBytes (s : State xlen) : List Byte :=
  ((List.range' s.pc.toNat Config.ilenMax).filter fun a => decide (a < Config.isize)).map s.imem.read

/-- What the engine finds at the start of a step. -/
inductive Fetched where
  /-- An instruction to execute. -/
  | instr (i : Instr)
  /-- A fault the step raises before any operand is used. -/
  | raises (c : Cause) (info : Nat)
  /-- No step exists. -/
  | stuck (f : Fault)
  deriving DecidableEq, Repr

/-- Fetch and decode. Only a RUNNING machine has a step (R90). An unsupported opcode raises
`UnsupportedOperation(opcode)` before anything else (R82); operand bytes that would lie above 255 raise
`OperandFetchOutOfRange(pc)` (R83). -/
def fetch (s : State xlen) : Fetched :=
  match s.status with
  | .halted => .stuck .noStepWhenHalted
  | .faulted _ _ => .stuck .noStepWhenFaulted
  | .running =>
    match decode (fetchBytes s) with
    | .ok i _ => .instr i
    | .unsupported op => .raises .unsupportedOperation op.toNat
    | .truncated => .raises .operandFetchOutOfRange s.pc.toNat

/-- The state with an instruction's bytes stored where the next fetch reads, on a machine that has a step. -/
def storeAtPc (bytes : List Byte) (s : State xlen) : State xlen :=
  { s with imem := s.imem.writeBytes s.pc.toNat bytes, status := .running }

end Sys2Proof.Machine
end

