-- ==== Sys2Proof/Machine/Execute.lean ====
section
/-! DEFINITION. Dispatch and the step for every register width (00_scope.md R5, 40_cycle.md R80, R86). Dispatch.lean and
Step.lean hold the two at the width of this hardware, under the host's names. -/

namespace Sys2Proof.Machine

variable {xlen : Xlen}

/-- Items 3 and 5 to 7 of the step (R80) for the instruction `i` at the state's pc, whatever `XLEN` is. -/
def execute (i : Instr) (s : State xlen) : Result xlen :=
  match i with
  | .hlt => execHlt s
  | .ldi r imm => execLdi r imm s
  | .prn r => execPrn r s
  | .add a b => execAdd a b s
  | .mul a b => execMul a b s
  | .cmp a b => execCmp a b s
  | .jmp r => execJmp r s
  | .jeq r => execJeq r s
  | .jne r => execJne r s

/-- Fetch and decode, then the instruction, which `run` executes. -/
def stepWith (run : Instr → State xlen → Result xlen) (s : State xlen) : Result xlen :=
  match fetch s with
  | .instr i => run i s
  | .raises c info => raise c info s
  | .stuck f => .fault f

/-- `Step` (R80), whatever `XLEN` is. -/
def stepAt (s : State xlen) : Result xlen :=
  stepWith execute s

end Sys2Proof.Machine
end

