-- ==== Sys2Proof/Machine/Step.lean ====
section
/-! DEFINITION. One step of the machine (40_cycle.md R80): fetch and decode, then the instruction. -/

namespace Sys2Proof.Machine

/-- `Step` (R80) of this hardware; `stepAt` is the same for every `XLEN`. -/
def step (s : State) : Host.Outcome State Fault Refusal :=
  stepWith exec s

/-- `s` with the instruction whose bits are `w` stored at the pc, so that the next step runs it. -/
def State.withFetchWord (s : State) (nbits w : Nat) : State :=
  storeAtPc (tableBytes nbits w) s

end Sys2Proof.Machine
end

