-- ==== Sys2Proof/Safety.lean ====
section
/-! DEFINITION. The terms claims use: the opcode and operand cells of a state, runs, how a run ends, and the
invariant of the machine. -/

namespace Sys2Proof

open Sys2Proof.Machine

variable {xlen : Xlen}

/-- The nine values of `SUPPORTED`, written out from 00_scope.md section 7 (R67). -/
def supportedBytes : List Byte :=
  [0x01#8, 0x82#8, 0x47#8, 0xA0#8, 0xA2#8, 0xA7#8, 0x54#8, 0x55#8, 0x56#8]

/-- The byte at the pc: the opcode the next step decodes (R81). -/
def opcodeAt (s : State xlen) : Byte :=
  s.imem.read s.pc.toNat

/-- `n`, the operand count of the opcode at the pc (R61). -/
def countAt (s : State xlen) : Nat :=
  (opcodeAt s >>> 6).toNat

/-- The byte after the opcode: operand 1 where there is one (R84). -/
def operand1At (s : State xlen) : Byte :=
  s.imem.read (s.pc.toNat + 1)

/-- The second byte after the opcode: operand 2 where there is one (R84). -/
def operand2At (s : State xlen) : Byte :=
  s.imem.read (s.pc.toNat + 2)

/-- The opcode at the pc is ADD, MUL or CMP. -/
def aluAt (s : State xlen) : Bool :=
  opcodeAt s == 0xA0#8 || opcodeAt s == 0xA2#8 || opcodeAt s == 0xA7#8

/-- The content of the register an operand byte names; 0 for a byte that names none. -/
def regNamed (s : State xlen) (operand : Byte) : Word xlen :=
  s.x.toList.getD operand.toNat 0

/-- The opcode at the pc is a control transfer that is taken in this state (R131 to R133). -/
def takenAt (s : State xlen) : Bool :=
  opcodeAt s == 0x54#8 || (opcodeAt s == 0x55#8 && s.fl.e) || (opcodeAt s == 0x56#8 && !s.fl.e)

/-- `k` steps lead from `s` to `t` (40_cycle.md R90). -/
def RunsTo : Nat → State → State → Prop
  | 0, s, t => s = t
  | k + 1, s, t => ∃ u, step s = .next u ∧ RunsTo k u t

/-- A run from `s` ends successfully: it becomes HALTED (00_scope.md R14). -/
def Halts (s : State) : Prop :=
  ∃ k t, RunsTo k s t ∧ t.status = .halted

/-- A run from `s` ends with this fault (00_scope.md R13, R14). -/
def FaultsWith (s : State) (c : Cause) (info : Nat) : Prop :=
  ∃ k t, RunsTo k s t ∧ t.status = .faulted c info

/-- A run from `s` never ends (00_scope.md R14, 70_reset_and_hazards.md R180). -/
def RunsForever (s : State) : Prop :=
  ∀ k, ∃ t, RunsTo k s t ∧ t.status = .running

/-- What a recorded fault says of the state it left behind: the causes and information values of 60_exceptions.md
R141, the pc being that of the faulting instruction (R140). The first case of `pcOutOfRange` needs `XLEN > 8` (R134). -/
def FaultExplained (s : State xlen) : Cause → Nat → Prop
  | .unsupportedOperation, info => opcodeAt s ∉ supportedBytes ∧ info = (opcodeAt s).toNat
  | .operandFetchOutOfRange, info =>
    opcodeAt s ∈ supportedBytes ∧ s.pc.toNat + countAt s > 255 ∧ info = s.pc.toNat
  | .registerIndexOutOfRange, info =>
    opcodeAt s ∈ supportedBytes ∧ opcodeAt s ≠ 0x01#8 ∧ s.pc.toNat + countAt s ≤ 255 ∧ 7 < info ∧
      (info = (operand1At s).toNat ∨ (aluAt s ∧ (operand1At s).toNat ≤ 7 ∧ info = (operand2At s).toNat))
  | .pcOutOfRange, info =>
    opcodeAt s ∈ supportedBytes ∧ opcodeAt s ≠ 0x01#8 ∧ s.pc.toNat + countAt s ≤ 255 ∧
      if takenAt s then 255 < info ∧ info = (regNamed s (operand1At s)).toNat
      else s.pc.toNat + countAt s = 255 ∧ info = 256

/-- The invariant of the machine: the Instruction Store is in canonical form, a HALTED machine's store holds an HLT
(42_halt.md R110), and a FAULTED status is one the state left behind accounts for. -/
def Inv (s : State xlen) : Prop :=
  s.imem.wf ∧
    match s.status with
    | .running => True
    | .halted => ∃ a, a ≤ 255 ∧ s.imem.read a = 0x01#8
    | .faulted c info => FaultExplained s c info

end Sys2Proof
end

