-- ==== Sys2Proof/Certificates/Slice0/Obligations.lean ====
section
/-! DEFINITION. The statements about the machine, each named after what it states. First the step of 40_cycle.md R80
written out once more, straight from its pseudocode and on raw bytes, for statements to compare the model with.
Where a rule of the spec carries its mark "decision D<n>" (8-bit unsigned wrapping registers D1 to D3, sticky flags D4,
the three fault causes beyond `UnsupportedOperation` D5 to D7, FAULTED and what it leaves D8, D9, the pc after HLT D10,
the fault order D12, reset D15), the statement says what the rule says; 92_eei_decisions.md tells what it errs on. -/

open Sys2Proof Sys2Proof.Machine

namespace Sys2Proof.Rule80

variable {xlen : Xlen}

/-- `raise C(info)`: `s` with the status FAULTED(C, info), all else as it is (R140). -/
def faulted (s : State xlen) (c : Cause) (info : Nat) : State xlen :=
  { s with status := .faulted c info }

/-- `x[o] <- v` for an operand byte `o`. -/
def setNamed (s : State xlen) (o : Byte) (v : Word xlen) : State xlen :=
  { s with x := s.x.setIfInBounds o.toNat v }

/-- Item 6 of the pseudocode for the opcode at the pc, HLT apart: the one effect on data state. -/
def effect (s : State xlen) : State xlen :=
  let o1 := operand1At s
  let o2 := operand2At s
  let a := (regNamed s o1).toNat
  let b := (regNamed s o2).toNat
  if opcodeAt s = 0x82#8 then setNamed s o1 (BitVec.ofNat xlen.bits o2.toNat)
  else if opcodeAt s = 0x47#8 then { s with out := s.out ++ [regNamed s o1] }
  else if opcodeAt s = 0xA0#8 then setNamed s o1 (BitVec.ofNat xlen.bits ((a + b) % 2 ^ xlen.bits))
  else if opcodeAt s = 0xA2#8 then setNamed s o1 (BitVec.ofNat xlen.bits ((a * b) % 2 ^ xlen.bits))
  else if opcodeAt s = 0xA7#8 then
    if a = b then { s with fl := { s.fl with e := true } }
    else if a > b then { s with fl := { s.fl with g := true } }
    else { s with fl := { s.fl with l := true } }
  else s

/-- The pseudocode of R80, items 1 to 7. -/
def step (s : State xlen) : State xlen :=
  let op := opcodeAt s
  let n := countAt s
  let o1 := operand1At s
  let o2 := operand2At s
  if op ∉ supportedBytes then faulted s .unsupportedOperation op.toNat
  else if s.pc.toNat + n > 255 then faulted s .operandFetchOutOfRange s.pc.toNat
  else if n ≥ 1 ∧ o1.toNat > 7 then faulted s .registerIndexOutOfRange o1.toNat
  else if aluAt s ∧ o2.toNat > 7 then faulted s .registerIndexOutOfRange o2.toNat
  else if op = 0x01#8 then { s with status := .halted, pc := BitVec.ofNat 8 ((s.pc.toNat + 1) % 256) }
  else if takenAt s then
    let t := (regNamed s o1).toNat
    if t > 255 then faulted s .pcOutOfRange t else { s with pc := BitVec.ofNat 8 t }
  else if s.pc.toNat + 1 + n > 255 then faulted (effect s) .pcOutOfRange (s.pc.toNat + 1 + n)
  else { effect s with pc := BitVec.ofNat 8 (s.pc.toNat + 1 + n) }

/-- No check of items 3 and 5 fails: the operand bytes exist and every index byte is 0 to 7. -/
abbrev operandsValid (s : State xlen) : Prop :=
  s.pc.toNat + countAt s ≤ 255 ∧ (1 ≤ countAt s → (operand1At s).toNat ≤ 7) ∧ (aluAt s → (operand2At s).toNat ≤ 7)

end Sys2Proof.Rule80

/-! ### Encoding and decoding -/

/-- The nine rows of the opcode map, each opcode byte in the table's binary with operand bytes after it, decode to
their instructions, and each byte's bits 7:6 give the row's operand count (30_encoding.md R61, R62, R67). -/
def Obligations.OpcodeMapRowsDecode : Prop :=
  decode [0b00000001#8] = .ok .hlt [] ∧ operandCount 0b00000001#8 = 0 ∧
  decode [0b10000010#8, 0b00000111#8, 0b11111111#8] = .ok (.ldi 7#8 255#8) [] ∧ operandCount 0b10000010#8 = 2 ∧
  decode [0b01000111#8, 0b00000101#8] = .ok (.prn 5#8) [] ∧ operandCount 0b01000111#8 = 1 ∧
  decode [0b10100000#8, 0b00000001#8, 0b00000010#8] = .ok (.add 1#8 2#8) [] ∧ operandCount 0b10100000#8 = 2 ∧
  decode [0b10100010#8, 0b00000011#8, 0b00000100#8] = .ok (.mul 3#8 4#8) [] ∧ operandCount 0b10100010#8 = 2 ∧
  decode [0b10100111#8, 0b00000110#8, 0b00000111#8] = .ok (.cmp 6#8 7#8) [] ∧ operandCount 0b10100111#8 = 2 ∧
  decode [0b01010100#8, 0b00000011#8] = .ok (.jmp 3#8) [] ∧ operandCount 0b01010100#8 = 1 ∧
  decode [0b01010101#8, 0b00000010#8] = .ok (.jeq 2#8) [] ∧ operandCount 0b01010101#8 = 1 ∧
  decode [0b01010110#8, 0b00000001#8] = .ok (.jne 1#8) [] ∧ operandCount 0b01010110#8 = 1

/-- The decoder accepts exactly the encodings: it answers an instruction, with the bytes left over, when the bytes
begin with that instruction's encoding and in no other case (R60, R62, R67). One direction is the round trip decode
after encode for every operand byte; the other says that no word has a second meaning (R71). -/
def Obligations.DecodeAcceptsExactlyTheEncodings : Prop :=
  ∀ (bytes rest : List Byte) (i : Instr), decode bytes = .ok i rest ↔ bytes = encode i ++ rest

/-- The decoder refuses an opcode as unsupported exactly when the whole byte is none of the nine, whatever bytes
follow; every byte with `n = 3` is among those (R68, R69). -/
def Obligations.UnsupportedExactlyOutsideTheNine : Prop :=
  ∀ (op : Byte) (operands : List Byte),
    (decode (op :: operands) = .unsupported op ↔ op ∉ supportedBytes) ∧
    (192 ≤ op.toNat → decode (op :: operands) = .unsupported op)

/-- An instruction's encoding is `1 + n` bytes, `n` the top two bits of its first byte, and `n` is 0, 1 or 2
(R60, R71). -/
def Obligations.EncodedLengthIsOnePlusCount : Prop :=
  ∀ i : Instr, ∃ op operands, encode i = op :: operands ∧ op ∈ supportedBytes ∧
    (encode i).length = 1 + operandCount op ∧ operandCount op ≤ 2

/-! ### Reset and loading -/

/-- Reset, for every `XLEN`, from any state and with any image of at most 256 bytes, gives the construction state: every piece of state
has the value of 10_state.md R36, and nothing of the old state survives (R172). -/
def Obligations.ResetGivesTheConstructionState : Prop :=
  ∀ (xlen : Xlen) (image : List Byte) (s : State xlen), image.length ≤ 256 →
    ∃ t, hostReset image s = .next t ∧
      (∀ i, t.reg i = 0) ∧ t.pc = 0 ∧ t.fl.e = false ∧ t.fl.l = false ∧ t.fl.g = false ∧ t.status = .running ∧
      t.out = [] ∧ (∀ a, a ≤ 255 → t.imem.read a = image.getD a 0)

/-- `State.reset` is the construction state before anything is loaded: zero-filled registers and cells, pc 0, flags
false, RUNNING, nothing printed (R36). That no image is loaded in it is the model's choice (log 3). -/
def Obligations.ResetStateIsZeroFilled : Prop :=
  (∀ i, State.reset.reg i = 0) ∧ State.reset.pc = 0 ∧ State.reset.fl = ⟨false, false, false⟩ ∧
    State.reset.status = .running ∧ State.reset.out = [] ∧ ∀ a, State.reset.imem.read a = 0

/-- A program of more than 256 bytes is refused (R173; the refusal's name is the model's). -/
def Obligations.OverlongImageIsRefused : Prop :=
  ∀ (xlen : Xlen) (image : List Byte) (s : State xlen), 256 < image.length → hostReset image s = .refused (.imageTooLong image.length)

/-- The first step after reset fetches at address 0: the bytes it decodes are the image's first three, 0 where the
image ends before (R171, R173; fetching them together is what R43 allows). So an image that begins with no supported
opcode, an empty one among them, raises `UnsupportedOperation` at once with the pc at 0. -/
def Obligations.FirstFetchIsAtAddressZero : Prop :=
  ∀ (image : List Byte) (s t : State), hostReset image s = .next t →
    t.pc = 0 ∧ fetchBytes t = [image.getD 0 0, image.getD 1 0, image.getD 2 0] ∧
    (image.getD 0 0 ∉ supportedBytes →
      step t = .next { t with pc := 0, status := .faulted .unsupportedOperation (image.getD 0 0).toNat })

/-! ### The step -/

/-- When the bytes at the pc of a RUNNING machine decode to an instruction, the step is that instruction's meaning at
that state; nothing is added around it. The second clause says the same for every `XLEN`. -/
def Obligations.StepRunsTheDecodedInstruction : Prop :=
  (∀ (s : State) (i : Instr) (rest : List Byte), s.status = .running → decode (fetchBytes s) = .ok i rest →
    step s = exec i s) ∧
  (∀ (xlen : Xlen) (s : State xlen) (i : Instr) (rest : List Byte), s.status = .running →
    decode (fetchBytes s) = .ok i rest → stepAt s = execute i s)

/-- This hardware is the machine with the argument `XLEN` at its default, 8 (R5): `exec` and `step` are `execute` and
`stepAt` there, `State.reset` is the construction state, and every `XLEN` is at least 8. -/
def Obligations.HardwareIsTheDefaultWidth : Prop :=
  Config.xlen.bits = 8 ∧ (∀ (i : Instr) (s : State), exec i s = execute i s) ∧ (∀ s : State, step s = stepAt s) ∧
    boot [] = .next State.reset ∧ ∀ xlen : Xlen, 8 ≤ xlen.bits

/-- The step of a RUNNING machine is the pseudocode of 40_cycle.md R80, for every state: of this hardware, and for
every other `XLEN`. -/
def Obligations.StepIsThePseudocode : Prop :=
  (∀ s : State, s.status = .running → step s = .next (Rule80.step s)) ∧
  (∀ (xlen : Xlen) (s : State xlen), s.status = .running → stepAt s = .next (Rule80.step s))

/-- A machine has a next state exactly when it is RUNNING: HALTED and FAULTED have no step (R90, R91). -/
def Obligations.StepExistsExactlyWhenRunning : Prop :=
  ∀ s : State, (∃ t, step s = .next t) ↔ s.status = .running

/-- R91: every RUNNING state has exactly one next state, RUNNING, HALTED or FAULTED, and it depends only on the
registers, the pc, `FL.E` and the bytes at pc to pc + 2: two RUNNING states that agree on those make the same change
to every piece of state (the same register file, pc, status, equal flag; the same values printed; the same flags set;
the store left alone). -/
def Obligations.StepDependsOnlyOnItsInputs : Prop :=
  ∀ s s' : State, s.status = .running → s'.status = .running →
    s.x = s'.x → s.pc = s'.pc → s.fl.e = s'.fl.e →
    (∀ k, k ≤ 2 → s.pc.toNat + k ≤ 255 → s.imem.read (s.pc.toNat + k) = s'.imem.read (s.pc.toNat + k)) →
    ∃ t t', step s = .next t ∧ step s' = .next t' ∧
      t.x = t'.x ∧ t.pc = t'.pc ∧ t.fl.e = t'.fl.e ∧ t.status = t'.status ∧
      (∃ printed, t.out = s.out ++ printed ∧ t'.out = s'.out ++ printed) ∧
      (∃ setL, t.fl.l = (s.fl.l || setL) ∧ t'.fl.l = (s'.fl.l || setL)) ∧
      (∃ setG, t.fl.g = (s.fl.g || setG) ∧ t'.fl.g = (s'.fl.g || setG)) ∧
      t.imem = s.imem ∧ t'.imem = s'.imem

/-- R82: an opcode byte outside the nine raises `UnsupportedOperation` with that byte, before every other check
and changing nothing but the status. -/
def Obligations.UnsupportedOpcodeRaises : Prop :=
  ∀ s : State, s.status = .running → opcodeAt s ∉ supportedBytes →
    step s = .next { s with status := .faulted .unsupportedOperation (opcodeAt s).toNat }

/-- R83: a supported opcode whose operand bytes would lie above 255 raises `OperandFetchOutOfRange(pc)` before any
effect, which with one operand is at pc 255 and with two at 254 and 255; HLT never raises it. -/
def Obligations.OperandFetchPastTheEndRaises : Prop :=
  (∀ s : State, s.status = .running → opcodeAt s ∈ supportedBytes → s.pc.toNat + countAt s > 255 →
    step s = .next { s with status := .faulted .operandFetchOutOfRange s.pc.toNat } ∧
    ((countAt s = 1 ∧ s.pc.toNat = 255) ∨ (countAt s = 2 ∧ s.pc.toNat ≥ 254))) ∧
  (∀ s t : State, s.status = .running → opcodeAt s = 0x01#8 → step s = .next t →
    ∀ info, t.status ≠ .faulted .operandFetchOutOfRange info)

/-- R85: every index operand of the executed instruction must be 0 to 7. A bad operand 1 of any of the eight raises
`RegisterIndexOutOfRange` with that byte; a bad operand 2 of ADD, MUL or CMP does when operand 1 is good; LDI's
operand 2 is not checked; a jump's index is checked whether or not it is taken (no clause asks about the flags). -/
def Obligations.RegisterIndexIsChecked : Prop :=
  (∀ s : State, s.status = .running → opcodeAt s ∈ supportedBytes → opcodeAt s ≠ 0x01#8 →
    s.pc.toNat + countAt s ≤ 255 → 7 < (operand1At s).toNat →
    step s = .next { s with status := .faulted .registerIndexOutOfRange (operand1At s).toNat }) ∧
  (∀ s : State, s.status = .running → aluAt s → s.pc.toNat + 2 ≤ 255 → (operand1At s).toNat ≤ 7 →
    7 < (operand2At s).toNat →
    step s = .next { s with status := .faulted .registerIndexOutOfRange (operand2At s).toNat }) ∧
  (∀ s t : State, s.status = .running → opcodeAt s = 0x82#8 → (operand1At s).toNat ≤ 7 → step s = .next t →
    ∀ info, t.status ≠ .faulted .registerIndexOutOfRange info)

/-- R88: LDI, PRN, ADD, MUL, CMP always and JEQ, JNE when not taken move the pc to `pc + 1 + n`; a taken transfer
does not advance, its new pc is the register's content as it is. -/
def Obligations.DefaultAdvanceOrTarget : Prop :=
  (∀ s : State, s.status = .running → opcodeAt s ∈ supportedBytes → opcodeAt s ≠ 0x01#8 → ¬ takenAt s →
    Rule80.operandsValid s → s.pc.toNat + 1 + countAt s ≤ 255 →
    ∃ t, step s = .next t ∧ t.pc.toNat = s.pc.toNat + 1 + countAt s ∧ t.status = .running) ∧
  (∀ s : State, s.status = .running → takenAt s → Rule80.operandsValid s →
    ∃ t, step s = .next t ∧ t.pc.toNat = (regNamed s (operand1At s)).toNat ∧ t.status = .running)

/-- R89: where the default advance would make the pc 256, the instruction's effect stands, the pc is left and the
step raises `PcOutOfRange(256)`, the address that could not be represented; a taken branch in the last cells does
not raise it. That 256 is the only such value follows from R83. -/
def Obligations.AdvancePastTheEndRaises : Prop :=
  (∀ s : State, s.status = .running → opcodeAt s ∈ supportedBytes → opcodeAt s ≠ 0x01#8 → ¬ takenAt s →
    Rule80.operandsValid s → s.pc.toNat + 1 + countAt s > 255 →
    s.pc.toNat + 1 + countAt s = 256 ∧
    step s = .next { Rule80.effect s with status := .faulted .pcOutOfRange 256 }) ∧
  (∀ s t : State, s.status = .running → takenAt s → step s = .next t →
    ∀ info, t.status ≠ .faulted .pcOutOfRange info)

/-- R148: one fault a step, and of the conditions that hold the first in the rule's order is the one reported; with
none of them the step raises no fault. (The taken branch of condition 5 cannot fault with `XLEN = 8`; TakenTransferForEveryWidth is about that fault.) -/
def Obligations.FirstFaultConditionIsReported : Prop :=
  ∀ s t : State, s.status = .running → step s = .next t →
    (opcodeAt s ∉ supportedBytes → t.status = .faulted .unsupportedOperation (opcodeAt s).toNat) ∧
    (opcodeAt s ∈ supportedBytes → s.pc.toNat + countAt s > 255 →
      t.status = .faulted .operandFetchOutOfRange s.pc.toNat) ∧
    (opcodeAt s ∈ supportedBytes → s.pc.toNat + countAt s ≤ 255 → 1 ≤ countAt s → 7 < (operand1At s).toNat →
      t.status = .faulted .registerIndexOutOfRange (operand1At s).toNat) ∧
    (aluAt s → s.pc.toNat + countAt s ≤ 255 → (operand1At s).toNat ≤ 7 → 7 < (operand2At s).toNat →
      t.status = .faulted .registerIndexOutOfRange (operand2At s).toNat) ∧
    (opcodeAt s ∈ supportedBytes → opcodeAt s ≠ 0x01#8 → Rule80.operandsValid s → ¬ takenAt s →
      s.pc.toNat + countAt s = 255 → t.status = .faulted .pcOutOfRange 256) ∧
    (opcodeAt s ∈ supportedBytes → Rule80.operandsValid s →
      (opcodeAt s = 0x01#8 ∨ takenAt s ∨ s.pc.toNat + countAt s ≤ 254) → ∀ c info, t.status ≠ .faulted c info)

/-- R140: a fault's whole effect is the status, nothing is saved and control goes nowhere: the pc is still that of the
faulting instruction, and the rest is unchanged, except that after `PcOutOfRange` by the default advance the
instruction's effect stands. Faults are precise. -/
def Obligations.FaultsArePrecise : Prop :=
  (∀ (s : State) (c : Cause) (info : Nat), raise c info s = .next { s with status := .faulted c info }) ∧
  (∀ (s t : State) (c : Cause) (info : Nat), s.status = .running → step s = .next t → t.status = .faulted c info →
    t.pc = s.pc ∧ t.imem = s.imem ∧
    (c ≠ .pcOutOfRange → t = { s with status := .faulted c info }) ∧
    (c = .pcOutOfRange → info = 256 ∧ t = { Rule80.effect s with status := .faulted .pcOutOfRange 256 }))

/-- R30: reset gives RUNNING; a step leads from RUNNING to HALTED exactly when it executes HLT, and otherwise to
RUNNING or, if it raises a fault, to FAULTED; HALTED and FAULTED are terminal, no step leaves them. -/
def Obligations.StatusTransitions : Prop :=
  State.reset.status = .running ∧
  (∀ s t : State, step s = .next t →
    s.status = .running ∧ (t.status = .halted ↔ opcodeAt s = 0x01#8) ∧
    (t.status = .running ∨ t.status = .halted ∨ ∃ c info, t.status = .faulted c info ∧ FaultExplained s c info)) ∧
  (∀ s t : State, s.status ≠ .running → step s ≠ .next t)

/-! ### The instructions, form by form: encoding, faults in the order they are tested, effect -/

/-- LDI (R100). -/
def Obligations.LdiFollowsItsRule : Prop :=
  ∀ (r imm : Byte) (s : State),
    (encode (.ldi r imm) = [0x82#8, r, imm] ∧ ∀ rest, decode (0x82#8 :: r :: imm :: rest) = .ok (.ldi r imm) rest) ∧
    (254 ≤ s.pc.toNat → exec (.ldi r imm) s = .next { s with status := .faulted .operandFetchOutOfRange s.pc.toNat }) ∧
    (s.pc.toNat ≤ 253 → 7 < r.toNat →
      exec (.ldi r imm) s = .next { s with status := .faulted .registerIndexOutOfRange r.toNat }) ∧
    (s.pc.toNat = 253 → ∀ h : r.toNat < 8, exec (.ldi r imm) s =
      .next { s with x := s.x.set r.toNat (BitVec.ofNat Config.xlen.bits imm.toNat), status := .faulted .pcOutOfRange 256 }) ∧
    (s.pc.toNat ≤ 252 → ∀ h : r.toNat < 8, exec (.ldi r imm) s =
      .next { s with x := s.x.set r.toNat (BitVec.ofNat Config.xlen.bits imm.toNat), pc := s.pc + 3 })

/-- PRN (R101). -/
def Obligations.PrnFollowsItsRule : Prop :=
  ∀ (r : Byte) (s : State),
    (encode (.prn r) = [0x47#8, r] ∧ ∀ rest, decode (0x47#8 :: r :: rest) = .ok (.prn r) rest) ∧
    (s.pc.toNat = 255 → exec (.prn r) s = .next { s with status := .faulted .operandFetchOutOfRange 255 }) ∧
    (s.pc.toNat ≤ 254 → 7 < r.toNat →
      exec (.prn r) s = .next { s with status := .faulted .registerIndexOutOfRange r.toNat }) ∧
    (s.pc.toNat = 254 → ∀ h : r.toNat < 8, exec (.prn r) s =
      .next { s with out := s.out ++ [s.x[r.toNat]], status := .faulted .pcOutOfRange 256 }) ∧
    (s.pc.toNat ≤ 253 → ∀ h : r.toNat < 8, exec (.prn r) s =
      .next { s with out := s.out ++ [s.x[r.toNat]], pc := s.pc + 2 })

/-- HLT (R110): from every state it gives HALTED with the pc one on, modulo 256, and never faults; no step follows it,
and nothing else leads to HALTED. (The spec calls the pc irrelevant after a halt; only this statement and the
pseudocode of R80 mention it.) -/
def Obligations.HltFollowsItsRule : Prop :=
  ∀ s : State,
    (encode .hlt = [0x01#8] ∧ ∀ rest, decode (0x01#8 :: rest) = .ok .hlt rest) ∧
    exec .hlt s = .next { s with status := .halted, pc := BitVec.ofNat 8 ((s.pc.toNat + 1) % 256) } ∧
    (∀ t, exec .hlt s = .next t → ∀ u, step t ≠ .next u) ∧
    (∀ t, step s = .next t → t.status = .halted → opcodeAt s = 0x01#8)

/-- CMP (R125). The relation is of the values as unsigned numbers. -/
def Obligations.CmpFollowsItsRule : Prop :=
  ∀ (a b : Byte) (s : State),
    (encode (.cmp a b) = [0xA7#8, a, b] ∧ ∀ rest, decode (0xA7#8 :: a :: b :: rest) = .ok (.cmp a b) rest) ∧
    (254 ≤ s.pc.toNat → exec (.cmp a b) s = .next { s with status := .faulted .operandFetchOutOfRange s.pc.toNat }) ∧
    (s.pc.toNat ≤ 253 → 7 < a.toNat →
      exec (.cmp a b) s = .next { s with status := .faulted .registerIndexOutOfRange a.toNat }) ∧
    (s.pc.toNat ≤ 253 → a.toNat ≤ 7 → 7 < b.toNat →
      exec (.cmp a b) s = .next { s with status := .faulted .registerIndexOutOfRange b.toNat }) ∧
    (∀ (ha : a.toNat < 8) (hb : b.toNat < 8) (fl : Flags),
      fl = (if s.x[a.toNat].toNat = s.x[b.toNat].toNat then { e := true, l := s.fl.l, g := s.fl.g }
            else if s.x[a.toNat].toNat < s.x[b.toNat].toNat then { e := s.fl.e, l := true, g := s.fl.g }
            else { e := s.fl.e, l := s.fl.l, g := true }) →
      (s.pc.toNat = 253 → exec (.cmp a b) s = .next { s with fl := fl, status := .faulted .pcOutOfRange 256 }) ∧
      (s.pc.toNat ≤ 252 → exec (.cmp a b) s = .next { s with fl := fl, pc := s.pc + 3 }))

/-- ADD (R126, with the wrap-around of R121). -/
def Obligations.AddFollowsItsRule : Prop :=
  ∀ (a b : Byte) (s : State),
    (encode (.add a b) = [0xA0#8, a, b] ∧ ∀ rest, decode (0xA0#8 :: a :: b :: rest) = .ok (.add a b) rest) ∧
    (254 ≤ s.pc.toNat → exec (.add a b) s = .next { s with status := .faulted .operandFetchOutOfRange s.pc.toNat }) ∧
    (s.pc.toNat ≤ 253 → 7 < a.toNat →
      exec (.add a b) s = .next { s with status := .faulted .registerIndexOutOfRange a.toNat }) ∧
    (s.pc.toNat ≤ 253 → a.toNat ≤ 7 → 7 < b.toNat →
      exec (.add a b) s = .next { s with status := .faulted .registerIndexOutOfRange b.toNat }) ∧
    (∀ (ha : a.toNat < 8) (hb : b.toNat < 8) (v : Word),
      v.toNat = (s.x[a.toNat].toNat + s.x[b.toNat].toNat) % 2 ^ Config.xlen.bits →
      (s.pc.toNat = 253 → exec (.add a b) s =
        .next { s with x := s.x.set a.toNat v, status := .faulted .pcOutOfRange 256 }) ∧
      (s.pc.toNat ≤ 252 → exec (.add a b) s = .next { s with x := s.x.set a.toNat v, pc := s.pc + 3 }))

/-- MUL (R127, with the wrap-around of R121). -/
def Obligations.MulFollowsItsRule : Prop :=
  ∀ (a b : Byte) (s : State),
    (encode (.mul a b) = [0xA2#8, a, b] ∧ ∀ rest, decode (0xA2#8 :: a :: b :: rest) = .ok (.mul a b) rest) ∧
    (254 ≤ s.pc.toNat → exec (.mul a b) s = .next { s with status := .faulted .operandFetchOutOfRange s.pc.toNat }) ∧
    (s.pc.toNat ≤ 253 → 7 < a.toNat →
      exec (.mul a b) s = .next { s with status := .faulted .registerIndexOutOfRange a.toNat }) ∧
    (s.pc.toNat ≤ 253 → a.toNat ≤ 7 → 7 < b.toNat →
      exec (.mul a b) s = .next { s with status := .faulted .registerIndexOutOfRange b.toNat }) ∧
    (∀ (ha : a.toNat < 8) (hb : b.toNat < 8) (v : Word),
      v.toNat = (s.x[a.toNat].toNat * s.x[b.toNat].toNat) % 2 ^ Config.xlen.bits →
      (s.pc.toNat = 253 → exec (.mul a b) s =
        .next { s with x := s.x.set a.toNat v, status := .faulted .pcOutOfRange 256 }) ∧
      (s.pc.toNat ≤ 252 → exec (.mul a b) s = .next { s with x := s.x.set a.toNat v, pc := s.pc + 3 }))

/-- JMP (R131): legal in cells 254 and 255; with `XLEN = 8` every target is a legal pc. -/
def Obligations.JmpFollowsItsRule : Prop :=
  ∀ (r : Byte) (s : State),
    (encode (.jmp r) = [0x54#8, r] ∧ ∀ rest, decode (0x54#8 :: r :: rest) = .ok (.jmp r) rest) ∧
    (s.pc.toNat = 255 → exec (.jmp r) s = .next { s with status := .faulted .operandFetchOutOfRange 255 }) ∧
    (s.pc.toNat ≤ 254 → 7 < r.toNat →
      exec (.jmp r) s = .next { s with status := .faulted .registerIndexOutOfRange r.toNat }) ∧
    (s.pc.toNat ≤ 254 → ∀ (h : r.toNat < 8) (t : Pc), t.toNat = s.x[r.toNat].toNat →
      exec (.jmp r) s = .next { s with pc := t })

/-- JEQ (R132). -/
def Obligations.JeqFollowsItsRule : Prop :=
  ∀ (r : Byte) (s : State),
    (encode (.jeq r) = [0x55#8, r] ∧ ∀ rest, decode (0x55#8 :: r :: rest) = .ok (.jeq r) rest) ∧
    (s.pc.toNat = 255 → exec (.jeq r) s = .next { s with status := .faulted .operandFetchOutOfRange 255 }) ∧
    (s.pc.toNat ≤ 254 → 7 < r.toNat →
      exec (.jeq r) s = .next { s with status := .faulted .registerIndexOutOfRange r.toNat }) ∧
    (s.pc.toNat ≤ 254 → ∀ (h : r.toNat < 8) (t : Pc), s.fl.e = true → t.toNat = s.x[r.toNat].toNat →
      exec (.jeq r) s = .next { s with pc := t }) ∧
    (s.pc.toNat = 254 → r.toNat ≤ 7 → s.fl.e = false →
      exec (.jeq r) s = .next { s with status := .faulted .pcOutOfRange 256 }) ∧
    (s.pc.toNat ≤ 253 → r.toNat ≤ 7 → s.fl.e = false → exec (.jeq r) s = .next { s with pc := s.pc + 2 })

/-- JNE (R133): it tests `FL.E` only. -/
def Obligations.JneFollowsItsRule : Prop :=
  ∀ (r : Byte) (s : State),
    (encode (.jne r) = [0x56#8, r] ∧ ∀ rest, decode (0x56#8 :: r :: rest) = .ok (.jne r) rest) ∧
    (s.pc.toNat = 255 → exec (.jne r) s = .next { s with status := .faulted .operandFetchOutOfRange 255 }) ∧
    (s.pc.toNat ≤ 254 → 7 < r.toNat →
      exec (.jne r) s = .next { s with status := .faulted .registerIndexOutOfRange r.toNat }) ∧
    (s.pc.toNat ≤ 254 → ∀ (h : r.toNat < 8) (t : Pc), s.fl.e = false → t.toNat = s.x[r.toNat].toNat →
      exec (.jne r) s = .next { s with pc := t }) ∧
    (s.pc.toNat = 254 → r.toNat ≤ 7 → s.fl.e = true →
      exec (.jne r) s = .next { s with status := .faulted .pcOutOfRange 256 }) ∧
    (s.pc.toNat ≤ 253 → r.toNat ≤ 7 → s.fl.e = true → exec (.jne r) s = .next { s with pc := s.pc + 2 })

/-- Every instruction answers a next state from every state: none stops (R91; a fault it raises is a next state,
R140), whatever `XLEN` is. Where its operands are valid and the pc can advance it is still RUNNING, or HALTED for HLT. -/
def Obligations.EveryInstructionAnswersANextState : Prop :=
  (∀ (i : Instr) (s : State), ∃ t, exec i s = .next t) ∧
  (∀ (xlen : Xlen) (i : Instr) (s : State xlen), ∃ t, execute i s = .next t) ∧
  (∀ (i : Instr) (s : State), i.wellFormed = true → s.status = .running →
    s.pc.toNat + (encode i).length ≤ 255 →
    ∃ t, exec i s = .next t ∧ t.status = (if i = .hlt then .halted else .running))

/-! ### Frames: what an instruction leaves unchanged -/

/-- LDI, ADD and MUL change no register but their first operand's, no flag, no output, no cell. -/
def Obligations.RegisterWritersFrame : Prop :=
  ∀ (i : Instr) (r o : Byte) (s t : State), (i = .ldi r o ∨ i = .add r o ∨ i = .mul r o) → exec i s = .next t →
    (∀ j : RegIndex, j.val ≠ r.toNat → t.reg j = s.reg j) ∧ t.fl = s.fl ∧ t.out = s.out ∧
    (∀ a, t.imem.read a = s.imem.read a) ∧ (t.status = s.status ∨ ∃ c info, t.status = .faulted c info)

/-- CMP changes no register, no output, no cell, and clears no flag; at most one flag differs. -/
def Obligations.CmpFrame : Prop :=
  ∀ (a b : Byte) (s t : State), exec (.cmp a b) s = .next t →
    (∀ j, t.reg j = s.reg j) ∧ t.out = s.out ∧ (∀ c, t.imem.read c = s.imem.read c) ∧
    (t.status = s.status ∨ ∃ c info, t.status = .faulted c info) ∧
    (t.fl = s.fl ∨ t.fl = { s.fl with e := true } ∨ t.fl = { s.fl with l := true } ∨ t.fl = { s.fl with g := true })

/-- PRN changes no register, no flag, no cell; it appends at most one value, the register's, to the output. -/
def Obligations.PrnFrame : Prop :=
  ∀ (r : Byte) (s t : State), exec (.prn r) s = .next t →
    (∀ j, t.reg j = s.reg j) ∧ t.fl = s.fl ∧ (∀ a, t.imem.read a = s.imem.read a) ∧
    (t.status = s.status ∨ ∃ c info, t.status = .faulted c info) ∧
    (t.out = s.out ∨ ∃ j : RegIndex, j.val = r.toNat ∧ t.out = s.out ++ [s.reg j])

/-- JMP, JEQ and JNE change no register, no flag, no output, no cell: nothing but the pc, or the status if they
raise a fault. -/
def Obligations.ControlTransferFrame : Prop :=
  ∀ (i : Instr) (r : Byte) (s t : State), (i = .jmp r ∨ i = .jeq r ∨ i = .jne r) → exec i s = .next t →
    (∀ j, t.reg j = s.reg j) ∧ t.fl = s.fl ∧ t.out = s.out ∧ (∀ a, t.imem.read a = s.imem.read a) ∧
    (t.status = s.status ∨ (t.pc = s.pc ∧ ∃ c info, t.status = .faulted c info))

/-- HLT changes no register, no flag, no output, no cell. -/
def Obligations.HltFrame : Prop :=
  ∀ s t : State, exec .hlt s = .next t →
    (∀ j, t.reg j = s.reg j) ∧ t.fl = s.fl ∧ t.out = s.out ∧ ∀ a, t.imem.read a = s.imem.read a

/-! ### Control transfer -/

/-- R134: with `XLEN = 8` every target is a legal pc and a taken transfer never faults; for a register of any width a
target above 255 raises `PcOutOfRange(t)` with the pc unchanged, and any other becomes the pc as it is. -/
def Obligations.TransferTargetRange : Prop :=
  (∀ (t : Word) (s : State), ∃ p : Pc, p.toNat = t.toNat ∧ transfer t s = .next { s with pc := p }) ∧
  (∀ (xlen : Xlen) (t : Word xlen) (s : State xlen),
    (255 < t.toNat → transfer t s = .next { s with status := .faulted .pcOutOfRange t.toNat }) ∧
    (t.toNat ≤ 255 → ∃ p : Pc, p.toNat = t.toNat ∧ transfer t s = .next { s with pc := p }))

/-- The one rule whose behaviour depends on `XLEN` (R5, R134), for the step: a taken JMP, JEQ or JNE whose register is
above 255 raises `PcOutOfRange` with the register's value and changes nothing but the status; otherwise the register's
content becomes the pc, and that is every case of this hardware. -/
def Obligations.TakenTransferForEveryWidth : Prop :=
  (∀ (xlen : Xlen) (s : State xlen), s.status = .running → takenAt s → Rule80.operandsValid s →
    (255 < (regNamed s (operand1At s)).toNat →
      stepAt s = .next { s with status := .faulted .pcOutOfRange (regNamed s (operand1At s)).toNat }) ∧
    ((regNamed s (operand1At s)).toNat ≤ 255 →
      ∃ p : Pc, p.toNat = (regNamed s (operand1At s)).toNat ∧ stepAt s = .next { s with pc := p })) ∧
  (∀ s : State, (regNamed s (operand1At s)).toNat ≤ 255)

/-- For every `XLEN` the immediate of LDI fits the register: it is zero-extended, and the register then holds the
byte's value (R5, R64, R100). It rests on `XLEN >= 8`. -/
def Obligations.LdiKeepsTheImmediateForEveryWidth : Prop :=
  ∀ (xlen : Xlen) (r imm : Byte) (s : State xlen) (h : r.toNat < 8), s.pc.toNat ≤ 253 →
    ∃ t, execute (.ldi r imm) s = .next t ∧ t.x[r.toNat].toNat = imm.toNat

/-- A taken transfer to the branch's own address is legal and runs forever without changing anything (R134, R180). -/
def Obligations.BranchToItselfLoopsForever : Prop :=
  ∀ s : State, s.status = .running → takenAt s → s.pc.toNat ≤ 254 → (operand1At s).toNat ≤ 7 →
    (regNamed s (operand1At s)).toNat = s.pc.toNat → (∀ k, RunsTo k s s) ∧ RunsForever s

/-! ### The whole machine -/

/-- The invariant holds at reset with nothing loaded. -/
def Obligations.InvariantHoldsAtReset : Prop :=
  Inv State.reset

/-- The invariant holds after reset with any image that is accepted, whatever `XLEN` is. -/
def Obligations.InvariantHoldsAfterLoading : Prop :=
  ∀ (xlen : Xlen) (image : List Byte) (s t : State xlen), hostReset image s = .next t → Inv t

/-- Every step keeps the invariant: the Instruction Store stays in canonical form, HALTED means an HLT was there to
execute, and a FAULTED status carries a cause and an information value of R141 that the state accounts for. The
second clause says the same for every `XLEN`. -/
def Obligations.StepKeepsTheInvariant : Prop :=
  (∀ s t : State, Inv s → step s = .next t → Inv t) ∧
  (∀ (xlen : Xlen) (s t : State xlen), Inv s → stepAt s = .next t → Inv t)

/-- No instruction writes the Instruction Store: over any run every cell reads the same (R44, R51). -/
def Obligations.InstructionStoreIsConstant : Prop :=
  ∀ (k : Nat) (s t : State), RunsTo k s t → t.imem = s.imem ∧ ∀ a, t.imem.read a = s.imem.read a

/-- Only CMP changes a flag (R28). -/
def Obligations.OnlyCmpWritesFlags : Prop :=
  ∀ s t : State, step s = .next t → opcodeAt s ≠ 0xA7#8 → t.fl = s.fl

/-- Flags are sticky: over any run a flag that is 1 stays 1 (R27). -/
def Obligations.FlagsAreSticky : Prop :=
  ∀ (k : Nat) (s t : State), RunsTo k s t →
    (s.fl.e = true → t.fl.e = true) ∧ (s.fl.l = true → t.fl.l = true) ∧ (s.fl.g = true → t.fl.g = true)

/-- `FL.L` and `FL.G` are read by no instruction: two machines that differ in them only run in step, and differ in
them only ever after (R28, R179 d). -/
def Obligations.LessAndGreaterNeverInfluenceARun : Prop :=
  ∀ (k : Nat) (s s' t : State), { s' with fl := s.fl } = s → s'.fl.e = s.fl.e → RunsTo k s t →
    ∃ t', RunsTo k s' t' ∧ { t' with fl := t.fl } = t ∧ t'.fl.e = t.fl.e

/-- Once `FL.E` is 1, every JEQ of the run is taken and no JNE is (R179 b). -/
def Obligations.EqualFlagSettlesEveryLaterBranch : Prop :=
  ∀ (k : Nat) (s t u : State), s.fl.e = true → RunsTo k s t → step t = .next u → u.status = .running →
    (opcodeAt t = 0x55#8 → u.pc.toNat = (regNamed t (operand1At t)).toNat) ∧
    (opcodeAt t = 0x56#8 → u.pc.toNat = t.pc.toNat + 2)

/-- The output trace only grows, by PRN alone and one value at a time: the content of the register it names (R9, R33,
R101). -/
def Obligations.OutputGrowsOnlyByPrn : Prop :=
  ∀ s t : State, step s = .next t →
    t.out = s.out ∨ (opcodeAt s = 0x47#8 ∧ (operand1At s).toNat ≤ 7 ∧ t.out = s.out ++ [regNamed s (operand1At s)])

/-- A run that ends HALTED ended by executing HLT, and nothing after it: its last step was at an HLT (R14, R90). -/
def Obligations.HaltedOnlyByExecutingHlt : Prop :=
  ∀ (k : Nat) (s t : State), s.status = .running → RunsTo k s t → t.status = .halted →
    (∃ j u, k = j + 1 ∧ RunsTo j s u ∧ u.status = .running ∧ opcodeAt u = 0x01#8 ∧ step u = .next t) ∧
    ∀ u, step t ≠ .next u

/-- R14: a run from a RUNNING state ends in exactly one way: it halts, or it faults with one cause and one
information value, or it runs forever. There is no other way to stop. -/
def Obligations.EveryRunEndsInExactlyOneWay : Prop :=
  ∀ s : State, s.status = .running →
    (Halts s ∨ (∃ c info, FaultsWith s c info) ∨ RunsForever s) ∧
    (∀ c info, FaultsWith s c info → ¬ Halts s ∧ ¬ RunsForever s ∧
      ∀ c' info', FaultsWith s c' info' → c' = c ∧ info' = info) ∧
    (Halts s → ¬ RunsForever s)

/-- A program can count down by adding 255: modulo 256 it subtracts 1 (R126, an inference of the spec's own). -/
def Obligations.Adding255CountsDown : Prop :=
  ∀ (a b : Byte) (s : State) (ha : a.toNat < 8) (hb : b.toNat < 8), s.pc.toNat ≤ 252 → s.x[b.toNat] = 255 →
    ∃ t, exec (.add a b) s = .next t ∧ t.x[a.toNat] = s.x[a.toNat] - 1

/-- What `withFetchWord` stores is what the next step runs: if the bytes of `w` decode to `i`, the step after reset
with them stored is `i`'s meaning there. `withFetchWord` stands for the host's load (log 3). -/
def Obligations.StoredWordIsTheNextInstruction : Prop :=
  ∀ (nbits w : Nat) (i : Instr), decodeTableWord nbits w = some i →
    step (State.reset.withFetchWord nbits w) = exec i (State.reset.withFetchWord nbits w)
end

