-- ==== Sys2Proof/Laws/Decode.lean ====
section
/-! SUPPORT. The opcode map read both ways: one table serves the decoder and the encoder. -/

namespace Sys2Proof

/-- Every operation is in the closed set. -/
theorem Opcode.mem_supported (o : Opcode) : o ∈ Opcode.supported := by cases o <;> decide

/-- The decoder of an opcode byte undoes the encoder. -/
@[simp] theorem Opcode.ofByte?_byte (o : Opcode) : Opcode.ofByte? o.byte = some o := by cases o <;> decide

/-- An opcode byte that decodes is that operation's byte: the whole byte counts. -/
theorem Opcode.byte_of_ofByte? {b : Byte} {o : Opcode} (h : Opcode.ofByte? b = some o) : b = o.byte := by
  have := List.find?_some h
  exact (by simpa using this : o.byte = b).symm

/-- The decoder refuses exactly the bytes that are no operation's. -/
theorem Opcode.ofByte?_eq_none {b : Byte} : Opcode.ofByte? b = none ↔ ∀ o : Opcode, b ≠ o.byte := by
  constructor
  · intro h o ho
    rw [ho, Opcode.ofByte?_byte] at h
    exact absurd h (by simp)
  · intro h
    rw [Opcode.ofByte?, List.find?_eq_none]
    intro o _ ho
    exact h o (by simpa using ho : o.byte = b).symm

/-- The bytes of a table word, written out. -/
theorem tableBytes_eq (nbits w : Nat) :
    tableBytes nbits w =
      [BitVec.ofNat 8 (w % 2 ^ nbits), BitVec.ofNat 8 ((w % 2 ^ nbits) >>> 8), BitVec.ofNat 8 ((w % 2 ^ nbits) >>> 16)] :=
  rfl

end Sys2Proof
end

