-- ==== Sys2Proof/Laws/Memory.lean ====
section
/-! SUPPORT. The laws of the Instruction Store: what a host's write and a load leave, and that both keep the canonical
form, in which equal stores are equal lists. -/

namespace Sys2Proof.Machine

/-- The canonical form of a nonempty list, taken apart. -/
theorem Memory.wf_cons (b : Nat) (u : Byte) (m : Memory) :
    Memory.wf ((b, u) :: m) ↔ (∀ c ∈ m, b < c.1) ∧ b < 256 ∧ u ≠ 0 ∧ m.wf := by
  simp only [Memory.wf, List.pairwise_cons, List.mem_cons, forall_eq_or_imp, Config.isize_eq]
  tauto

/-- Only a listed address reads nonzero. -/
theorem Memory.mem_of_read_ne_zero {m : Memory} {a : Nat} (h : m.read a ≠ 0) : ∃ v, (a, v) ∈ m := by
  induction m with
  | nil => simp [Memory.read] at h
  | cons c m ih =>
    obtain ⟨b, u⟩ := c
    by_cases hb : b = a
    · exact ⟨u, by simp [hb]⟩
    · obtain ⟨v, hv⟩ := ih (by simpa [Memory.read, hb] using h)
      exact ⟨v, List.mem_cons_of_mem _ hv⟩

/-- An address below everything listed reads 0. -/
theorem Memory.read_eq_zero {m : Memory} {a : Nat} (h : ∀ c ∈ m, a < c.1) : m.read a = 0 := by
  by_contra hne
  obtain ⟨v, hv⟩ := Memory.mem_of_read_ne_zero hne
  exact absurd (h _ hv) (by simp)

/-- A canonical store reads 0 outside the address space. -/
theorem Memory.read_outside {m : Memory} (h : m.wf) {a : Nat} (ha : 256 ≤ a) : m.read a = 0 := by
  by_contra hne
  obtain ⟨v, hv⟩ := Memory.mem_of_read_ne_zero hne
  have := (h.2 _ hv).1
  simp at this
  omega

theorem Memory.mem_erase {m : Memory} {a : Nat} {c : Host.Cell} (h : c ∈ m.erase a) : c ∈ m := by
  induction m with
  | nil => simp [Memory.erase] at h
  | cons d m ih =>
    obtain ⟨b, u⟩ := d
    simp only [Memory.erase] at h
    split at h
    · exact List.mem_cons_of_mem _ h
    · rcases List.mem_cons.1 h with h | h
      · simp [h]
      · exact List.mem_cons_of_mem _ (ih h)

theorem Memory.mem_insert {m : Memory} {a : Nat} {v : Byte} {c : Host.Cell} (h : c ∈ m.insert a v) :
    c = (a, v) ∨ c ∈ m := by
  induction m with
  | nil => simpa [Memory.insert] using h
  | cons d m ih =>
    obtain ⟨b, u⟩ := d
    simp only [Memory.insert] at h
    split at h
    · simpa using h
    · split at h
      · rcases List.mem_cons.1 h with h | h
        · exact .inl h
        · exact .inr (List.mem_cons_of_mem _ h)
      · rcases List.mem_cons.1 h with h | h
        · simp [h]
        · exact (ih h).imp id (List.mem_cons_of_mem _)

theorem Memory.erase_wf {m : Memory} {a : Nat} (h : m.wf) : (m.erase a).wf := by
  induction m with
  | nil => simpa [Memory.erase] using h
  | cons d m ih =>
    obtain ⟨b, u⟩ := d
    obtain ⟨hlt, hb, hu, hm⟩ := (Memory.wf_cons b u m).1 h
    simp only [Memory.erase]
    split
    · exact hm
    · exact (Memory.wf_cons _ _ _).2 ⟨fun c hc => hlt c (Memory.mem_erase hc), hb, hu, ih hm⟩

theorem Memory.insert_wf {m : Memory} {a : Nat} {v : Byte} (h : m.wf) (ha : a < 256) (hv : v ≠ 0) :
    (m.insert a v).wf := by
  induction m with
  | nil => exact (Memory.wf_cons a v []).2 ⟨by simp, ha, hv, h⟩
  | cons d m ih =>
    obtain ⟨b, u⟩ := d
    obtain ⟨hlt, hb, hu, hm⟩ := (Memory.wf_cons b u m).1 h
    simp only [Memory.insert]
    split
    · rename_i hab
      refine (Memory.wf_cons _ _ _).2 ⟨fun c hc => ?_, ha, hv, h⟩
      rcases List.mem_cons.1 hc with rfl | hc
      · exact hab
      · exact hab.trans (hlt c hc)
    · split
      · rename_i hab
        exact (Memory.wf_cons _ _ _).2 ⟨fun c hc => hab ▸ hlt c hc, ha, hv, hm⟩
      · refine (Memory.wf_cons _ _ _).2 ⟨fun c hc => ?_, hb, hu, ih hm⟩
        rcases Memory.mem_insert hc with rfl | hc
        · simp only
          omega
        · exact hlt c hc

/-- A host's write keeps the canonical form. -/
theorem Memory.write_wf {m : Memory} (h : m.wf) (a : Nat) (v : Byte) : (m.write a v).wf := by
  by_cases ha : a < 256
  · by_cases hv : v = 0
    · rw [Memory.write, Config.isize_eq, if_pos ha, if_pos hv]
      exact Memory.erase_wf h
    · rw [Memory.write, Config.isize_eq, if_pos ha, if_neg hv]
      exact Memory.insert_wf h ha hv
  · rwa [Memory.write, Config.isize_eq, if_neg ha]

theorem Memory.read_erase {m : Memory} (h : m.wf) (a c : Nat) :
    (m.erase a).read c = if c = a then 0 else m.read c := by
  induction m with
  | nil => simp [Memory.erase, Memory.read]
  | cons d m ih =>
    obtain ⟨b, u⟩ := d
    obtain ⟨hlt, -, -, hm⟩ := (Memory.wf_cons b u m).1 h
    by_cases hba : b = a
    · subst hba
      by_cases hc : c = b
      · subst hc
        simp [Memory.erase, Memory.read_eq_zero hlt]
      · simp [Memory.erase, Memory.read, hc, Ne.symm hc]
    · by_cases hbc : b = c
      · subst hbc
        simp [Memory.erase, Memory.read, hba]
      · simp [Memory.erase, Memory.read, hba, hbc, ih hm]

theorem Memory.read_insert (m : Memory) (a c : Nat) (v : Byte) :
    (m.insert a v).read c = if c = a then v else m.read c := by
  induction m with
  | nil => simp [Memory.insert, Memory.read, eq_comm]
  | cons d m ih =>
    obtain ⟨b, u⟩ := d
    simp only [Memory.insert]
    split
    · simp [Memory.read, eq_comm]
    · split
      · rename_i hab
        subst hab
        by_cases hc : a = c <;> simp [Memory.read, hc, eq_comm]
      · rename_i hlt hne
        by_cases hbc : b = c
        · subst hbc
          simp [Memory.read, Ne.symm hne]
        · simp [Memory.read, hbc, ih]

/-- Read after write: the written cell reads as written, every other cell as before. -/
theorem Memory.read_write {m : Memory} (h : m.wf) {a : Nat} (ha : a < 256) (c : Nat) (v : Byte) :
    (m.write a v).read c = if c = a then v else m.read c := by
  simp only [Memory.write, Config.isize_eq, ha, if_true]
  split
  · rename_i hv
    rw [Memory.read_erase h, hv]
  · exact Memory.read_insert m a c v

/-- A host's write outside the store does nothing. -/
theorem Memory.write_outside (m : Memory) {a : Nat} (ha : 256 ≤ a) (v : Byte) : m.write a v = m := by
  simp [Memory.write, Nat.not_lt.2 ha]

/-- Writing consecutive cells keeps the canonical form. -/
theorem Memory.writeBytes_wf {m : Memory} (h : m.wf) (a : Nat) (vs : List Byte) : (m.writeBytes a vs).wf := by
  induction vs generalizing m a with
  | nil => exact h
  | cons v vs ih => exact ih (Memory.write_wf h a v) (a + 1)

/-- Writing consecutive cells that all exist: they read as written, every other cell as before. -/
theorem Memory.read_writeBytes {m : Memory} (h : m.wf) {a : Nat} (vs : List Byte) (ha : a + vs.length ≤ 256) (c : Nat) :
    (m.writeBytes a vs).read c = if a ≤ c ∧ c < a + vs.length then vs.getD (c - a) 0 else m.read c := by
  induction vs generalizing m a with
  | nil =>
    simp only [Memory.writeBytes, List.length_nil]
    rw [if_neg (by omega)]
  | cons v vs ih =>
    simp only [List.length_cons] at ha ⊢
    rw [Memory.writeBytes, ih (Memory.write_wf h a v) (by omega), Memory.read_write h (by omega)]
    by_cases hc : c = a
    · subst hc
      rw [if_neg (by omega), if_pos rfl, if_pos (by omega)]
      simp
    · by_cases hin : a + 1 ≤ c ∧ c < a + 1 + vs.length
      · rw [if_pos hin, if_pos (by omega), show c - a = c - (a + 1) + 1 by omega]
        simp
      · rw [if_neg hin, if_neg hc, if_neg (by omega)]

theorem Memory.base_le_of_mem_ofBytesAt {base : Nat} {vs : List Byte} {c : Host.Cell}
    (h : c ∈ Memory.ofBytesAt base vs) : base ≤ c.1 := by
  induction vs generalizing base with
  | nil => simp [Memory.ofBytesAt] at h
  | cons v vs ih =>
    simp only [Memory.ofBytesAt] at h
    split at h
    · have := ih h
      omega
    · rcases List.mem_cons.1 h with rfl | h
      · simp
      · have := ih h
        omega

/-- A loaded image that fits is in canonical form. -/
theorem Memory.ofBytesAt_wf {base : Nat} {vs : List Byte} (h : base + vs.length ≤ 256) :
    (Memory.ofBytesAt base vs).wf := by
  induction vs generalizing base with
  | nil => simp [Memory.ofBytesAt, Memory.wf]
  | cons v vs ih =>
    simp only [List.length_cons] at h
    simp only [Memory.ofBytesAt]
    split
    · exact ih (by omega)
    · refine (Memory.wf_cons _ _ _).2 ⟨fun c hc => ?_, by omega, ‹_›, ih (by omega)⟩
      have := Memory.base_le_of_mem_ofBytesAt hc
      omega

/-- A loaded cell reads as the program's byte, every other cell 0 (70_reset_and_hazards.md R173). -/
theorem Memory.read_ofBytesAt (base : Nat) (vs : List Byte) (a : Nat) :
    (Memory.ofBytesAt base vs).read a = if base ≤ a then vs.getD (a - base) 0 else 0 := by
  induction vs generalizing base with
  | nil => simp [Memory.ofBytesAt, Memory.read]
  | cons v vs ih =>
    simp only [Memory.ofBytesAt]
    by_cases hlt : base + 1 ≤ a
    · have hne : base ≠ a := by omega
      rw [if_pos (by omega : base ≤ a), show a - base = a - (base + 1) + 1 by omega]
      split <;> simp [Memory.read, hne, ih, hlt]
    · by_cases heq : base = a
      · subst heq
        split <;> simp_all [Memory.read]
      · rw [if_neg (by omega : ¬ base ≤ a)]
        split <;> simp [Memory.read, heq, ih, hlt]

/-- Canonical stores that read the same everywhere are the same list. -/
theorem Memory.ext_of_wf {m m' : Memory} (h : m.wf) (h' : m'.wf) (heq : ∀ a, m.read a = m'.read a) : m = m' := by
  induction m generalizing m' with
  | nil =>
    cases m' with
    | nil => rfl
    | cons d m' =>
      obtain ⟨b, u⟩ := d
      have := ((Memory.wf_cons b u m').1 h').2.2.1
      exact absurd (heq b).symm (by simpa [Memory.read] using this)
  | cons c m ih =>
    obtain ⟨b, u⟩ := c
    obtain ⟨hlt, -, hu, hm⟩ := (Memory.wf_cons b u m).1 h
    cases m' with
    | nil => exact absurd (heq b) (by simpa [Memory.read] using hu)
    | cons d m' =>
      obtain ⟨b', u'⟩ := d
      obtain ⟨hlt', -, hu', hm'⟩ := (Memory.wf_cons b' u' m').1 h'
      have hbb : b = b' := by
        rcases Nat.lt_trichotomy b b' with hl | he | hg
        · have hz : Memory.read ((b', u') :: m') b = 0 := by
            refine Memory.read_eq_zero fun c hc => ?_
            rcases List.mem_cons.1 hc with rfl | hc
            · exact hl
            · exact hl.trans (hlt' c hc)
          exact absurd ((heq b).trans hz) (by simpa [Memory.read] using hu)
        · exact he
        · have hz : Memory.read ((b, u) :: m) b' = 0 := by
            refine Memory.read_eq_zero fun c hc => ?_
            rcases List.mem_cons.1 hc with rfl | hc
            · exact hg
            · exact hg.trans (hlt c hc)
          exact absurd ((heq b').symm.trans hz) (by simpa [Memory.read] using hu')
      subst hbb
      have huu : u = u' := by simpa [Memory.read] using heq b
      subst huu
      congr 1
      refine ih hm hm' fun a => ?_
      by_cases hab : b = a
      · subst hab
        rw [Memory.read_eq_zero hlt, Memory.read_eq_zero hlt']
      · simpa [Memory.read, hab] using heq a

/-- Reset memory is in canonical form. -/
theorem State.reset_imem_wf : State.reset.imem.wf := by decide

end Sys2Proof.Machine
end

