-- ==== Sys2Proof/Laws/State.lean ====
section
/-! SUPPORT. One lemma per field of the state per update, so that no proof unfolds a record update. -/

namespace Sys2Proof.Machine

variable {xlen : Xlen} (s : State xlen)

@[simp] theorem State.setReg_x (i : RegIndex) (v : Word xlen) : (s.setReg i v).x = s.x.set i v := rfl
@[simp] theorem State.setReg_pc (i : RegIndex) (v : Word xlen) : (s.setReg i v).pc = s.pc := rfl
@[simp] theorem State.setReg_fl (i : RegIndex) (v : Word xlen) : (s.setReg i v).fl = s.fl := rfl
@[simp] theorem State.setReg_status (i : RegIndex) (v : Word xlen) : (s.setReg i v).status = s.status := rfl
@[simp] theorem State.setReg_imem (i : RegIndex) (v : Word xlen) : (s.setReg i v).imem = s.imem := rfl
@[simp] theorem State.setReg_out (i : RegIndex) (v : Word xlen) : (s.setReg i v).out = s.out := rfl

@[simp] theorem State.setFlags_x (f : Flags) : (s.setFlags f).x = s.x := rfl
@[simp] theorem State.setFlags_pc (f : Flags) : (s.setFlags f).pc = s.pc := rfl
@[simp] theorem State.setFlags_fl (f : Flags) : (s.setFlags f).fl = f := rfl
@[simp] theorem State.setFlags_status (f : Flags) : (s.setFlags f).status = s.status := rfl
@[simp] theorem State.setFlags_imem (f : Flags) : (s.setFlags f).imem = s.imem := rfl
@[simp] theorem State.setFlags_out (f : Flags) : (s.setFlags f).out = s.out := rfl
@[simp] theorem State.setFlags_reg (f : Flags) (j : RegIndex) : (s.setFlags f).reg j = s.reg j := rfl

@[simp] theorem State.emit_x (v : Word xlen) : (s.emit v).x = s.x := rfl
@[simp] theorem State.emit_pc (v : Word xlen) : (s.emit v).pc = s.pc := rfl
@[simp] theorem State.emit_fl (v : Word xlen) : (s.emit v).fl = s.fl := rfl
@[simp] theorem State.emit_status (v : Word xlen) : (s.emit v).status = s.status := rfl
@[simp] theorem State.emit_imem (v : Word xlen) : (s.emit v).imem = s.imem := rfl
@[simp] theorem State.emit_out (v : Word xlen) : (s.emit v).out = s.out ++ [v] := rfl
@[simp] theorem State.emit_reg (v : Word xlen) (j : RegIndex) : (s.emit v).reg j = s.reg j := rfl

@[simp] theorem State.setPc_x (p : Pc) : (s.setPc p).x = s.x := rfl
@[simp] theorem State.setPc_pc (p : Pc) : (s.setPc p).pc = p := rfl
@[simp] theorem State.setPc_fl (p : Pc) : (s.setPc p).fl = s.fl := rfl
@[simp] theorem State.setPc_status (p : Pc) : (s.setPc p).status = s.status := rfl
@[simp] theorem State.setPc_imem (p : Pc) : (s.setPc p).imem = s.imem := rfl
@[simp] theorem State.setPc_out (p : Pc) : (s.setPc p).out = s.out := rfl
@[simp] theorem State.setPc_reg (p : Pc) (j : RegIndex) : (s.setPc p).reg j = s.reg j := rfl

@[simp] theorem State.setStatus_x (st : Status) : (s.setStatus st).x = s.x := rfl
@[simp] theorem State.setStatus_pc (st : Status) : (s.setStatus st).pc = s.pc := rfl
@[simp] theorem State.setStatus_fl (st : Status) : (s.setStatus st).fl = s.fl := rfl
@[simp] theorem State.setStatus_status (st : Status) : (s.setStatus st).status = st := rfl
@[simp] theorem State.setStatus_imem (st : Status) : (s.setStatus st).imem = s.imem := rfl
@[simp] theorem State.setStatus_out (st : Status) : (s.setStatus st).out = s.out := rfl
@[simp] theorem State.setStatus_reg (st : Status) (j : RegIndex) : (s.setStatus st).reg j = s.reg j := rfl

/-- A written register reads as written. -/
@[simp] theorem State.reg_setReg_same (i : RegIndex) (v : Word xlen) : (s.setReg i v).reg i = v := by
  simp [State.reg]

/-- A write leaves every other register alone (10_state.md R23). -/
theorem State.reg_setReg_other {i j : RegIndex} (v : Word xlen) (h : j ≠ i) : (s.setReg i v).reg j = s.reg j := by
  have hij : i.val ≠ j.val := fun e => h (Fin.ext e.symm)
  simp [State.reg, hij]

end Sys2Proof.Machine
end

