-- ==== Sys2Proof/Laws/Ops.lean ====
section
/-! SUPPORT. For each shared operation what it answers, once; proofs about instructions cite these and do not unfold
the operations. -/

namespace Sys2Proof.Machine

variable {xlen : Xlen} (s : State xlen)

/-- A pc below 256 for certain. -/
theorem State.pc_lt : s.pc.toNat < 256 := s.pc.isLt

/-- Everything `raise` does. -/
theorem raise_eq_next (c : Cause) (info : Nat) : raise c info s = .next (s.setStatus (.faulted c info)) := rfl

/-! ### Operand range (R83) -/

theorem withOperands_fits {n : Nat} (k : Result xlen) (h : s.pc.toNat + n ≤ 255) : withOperands n s k = k := by
  simp [withOperands, show ¬ 256 ≤ s.pc.toNat + n by omega]

theorem withOperands_past {n : Nat} (k : Result xlen) (h : 255 < s.pc.toNat + n) :
    withOperands n s k = raise .operandFetchOutOfRange s.pc.toNat s := by
  simp [withOperands, show 256 ≤ s.pc.toNat + n by omega]

/-- Everything `withOperands` can do. -/
theorem withOperands_next {n : Nat} {k : Result xlen} {t : State xlen} (h : withOperands n s k = .next t) :
    (s.pc.toNat + n ≤ 255 ∧ k = .next t) ∨
      (255 < s.pc.toNat + n ∧ t = s.setStatus (.faulted .operandFetchOutOfRange s.pc.toNat)) := by
  by_cases hn : s.pc.toNat + n ≤ 255
  · exact .inl ⟨hn, by rwa [withOperands_fits s k hn] at h⟩
  · rw [withOperands_past s k (by omega), raise_eq_next] at h
    exact .inr ⟨by omega, (Host.Outcome.next.inj h).symm⟩

/-! ### Register index check (R85) -/

theorem regIndex?_of_lt {o : Byte} (h : o.toNat < 8) : regIndex? o = some ⟨o.toNat, h⟩ := by
  simp [regIndex?, h]

theorem regIndex?_of_gt {o : Byte} (h : 7 < o.toNat) : regIndex? o = none := by
  simp [regIndex?, show ¬ o.toNat < 8 by omega]

theorem withReg_of_lt {o : Byte} (k : RegIndex → Result xlen) (h : o.toNat < 8) : withReg o s k = k ⟨o.toNat, h⟩ := by
  simp [withReg, regIndex?_of_lt h]

theorem withReg_of_gt {o : Byte} (k : RegIndex → Result xlen) (h : 7 < o.toNat) :
    withReg o s k = raise .registerIndexOutOfRange o.toNat s := by
  simp [withReg, regIndex?_of_gt h]

/-- Everything `withReg` can do. -/
theorem withReg_next {o : Byte} {k : RegIndex → Result xlen} {t : State xlen} (h : withReg o s k = .next t) :
    (∃ i : RegIndex, i.val = o.toNat ∧ k i = .next t) ∨
      (7 < o.toNat ∧ t = s.setStatus (.faulted .registerIndexOutOfRange o.toNat)) := by
  by_cases ho : o.toNat < 8
  · exact .inl ⟨⟨o.toNat, ho⟩, rfl, by rwa [withReg_of_lt s k ho] at h⟩
  · rw [withReg_of_gt s k (by omega), raise_eq_next] at h
    exact .inr ⟨by omega, (Host.Outcome.next.inj h).symm⟩

/-! ### The next pc (R88, R89, R134) -/

theorem advance_fits {n : Nat} (h : s.pc.toNat + 1 + n ≤ 255) :
    advance n s = .next (s.setPc (BitVec.ofNat 8 (s.pc.toNat + 1 + n))) := by
  simp [advance, show ¬ 256 ≤ s.pc.toNat + 1 + n by omega]

theorem advance_past {n : Nat} (h : 255 < s.pc.toNat + 1 + n) :
    advance n s = raise .pcOutOfRange (s.pc.toNat + 1 + n) s := by
  simp [advance, show 256 ≤ s.pc.toNat + 1 + n by omega]

/-- Everything `advance` can do. -/
theorem advance_next {n : Nat} {t : State xlen} (h : advance n s = .next t) :
    (s.pc.toNat + 1 + n ≤ 255 ∧ t = s.setPc (BitVec.ofNat 8 (s.pc.toNat + 1 + n))) ∨
      (255 < s.pc.toNat + 1 + n ∧ t = s.setStatus (.faulted .pcOutOfRange (s.pc.toNat + 1 + n))) := by
  by_cases hn : s.pc.toNat + 1 + n ≤ 255
  · rw [advance_fits s hn] at h
    exact .inl ⟨hn, (Host.Outcome.next.inj h).symm⟩
  · rw [advance_past s (by omega), raise_eq_next] at h
    exact .inr ⟨by omega, (Host.Outcome.next.inj h).symm⟩

theorem transfer_fits {t : Word xlen} (h : t.toNat ≤ 255) :
    transfer t s = .next (s.setPc (BitVec.ofNat 8 t.toNat)) := by
  simp [transfer, show ¬ 256 ≤ t.toNat by omega]

theorem transfer_past {t : Word xlen} (h : 255 < t.toNat) :
    transfer t s = raise .pcOutOfRange t.toNat s := by
  simp [transfer, show 256 ≤ t.toNat by omega]

/-- Everything `transfer` can do. -/
theorem transfer_next {v : Word xlen} {t : State xlen} (h : transfer v s = .next t) :
    (v.toNat ≤ 255 ∧ t = s.setPc (BitVec.ofNat 8 v.toNat)) ∨
      (255 < v.toNat ∧ t = s.setStatus (.faulted .pcOutOfRange v.toNat)) := by
  by_cases hv : v.toNat ≤ 255
  · rw [transfer_fits s hv] at h
    exact .inl ⟨hv, (Host.Outcome.next.inj h).symm⟩
  · rw [transfer_past s (by omega), raise_eq_next] at h
    exact .inr ⟨by omega, (Host.Outcome.next.inj h).symm⟩

/-- A register of this hardware holds a legal pc (R134). -/
theorem Word.le_255 (t : Word) : t.toNat ≤ 255 := by
  have : t.toNat < 256 := t.isLt
  omega

/-- A transfer through a register of this hardware: the pc is the register's content, always. -/
theorem transfer_word (t : Word) (s : State) : transfer t s = .next (s.setPc t) := by
  rw [transfer_fits s (Word.le_255 t)]
  have h : BitVec.ofNat 8 t.toNat = t := by simp
  rw [h]

/-- The immediate keeps its value in a register of any width: `XLEN` is at least 8 (R5, R64). -/
@[simp] theorem immediate_toNat (imm : Byte) : (immediate imm : Word xlen).toNat = imm.toNat := by
  have hle : 2 ^ 8 ≤ 2 ^ xlen.bits := Nat.pow_le_pow_right (by decide) xlen.eight_le
  have hlt := imm.isLt
  rw [immediate, BitVec.toNat_setWidth, Nat.mod_eq_of_lt (by omega)]

/-! ### The ALU and the branches -/

@[simp] theorem aluExecute_pc (op : AluOp) (a b : RegIndex) : (aluExecute op a b s).pc = s.pc := by cases op <;> rfl

@[simp] theorem aluExecute_status (op : AluOp) (a b : RegIndex) : (aluExecute op a b s).status = s.status := by
  cases op <;> rfl

@[simp] theorem aluExecute_imem (op : AluOp) (a b : RegIndex) : (aluExecute op a b s).imem = s.imem := by
  cases op <;> rfl

@[simp] theorem aluExecute_out (op : AluOp) (a b : RegIndex) : (aluExecute op a b s).out = s.out := by cases op <;> rfl

/-- The narrowing of an exact result keeps its low `XLEN` bits (R121). -/
@[simp] theorem narrow_toNat (n : Nat) : (narrow n : Word xlen).toNat = n % 2 ^ xlen.bits := by simp [narrow]

/-- Everything CMP can do to the flags: exactly one is set, by the true relation of the unsigned values (R125). -/
theorem Flags.compare_cases (f : Flags) (a b : Word xlen) :
    (a.toNat = b.toNat ∧ f.compare a b = { f with e := true }) ∨
      (a.toNat < b.toNat ∧ f.compare a b = { f with l := true }) ∨
      (b.toNat < a.toNat ∧ f.compare a b = { f with g := true }) := by
  unfold Flags.compare
  by_cases h : a = b
  · exact .inl ⟨by rw [h], by simp [h]⟩
  · have hne : a.toNat ≠ b.toNat := fun e => h (BitVec.eq_of_toNat_eq e)
    by_cases hgt : a.toNat > b.toNat
    · exact .inr (.inr ⟨hgt, by simp [h, hgt]⟩)
    · exact .inr (.inl ⟨by omega, by simp [h, hgt]⟩)

/-- Everything an ALU instruction can do. -/
theorem aluInstruction_next {op : AluOp} {a b : Byte} {t : State xlen} (h : aluInstruction op a b s = .next t) :
    (∃ i j : RegIndex, i.val = a.toNat ∧ j.val = b.toNat ∧ s.pc.toNat + 2 ≤ 255 ∧
      advance 2 (aluExecute op i j s) = .next t) ∨
      ∃ c info, c ≠ .pcOutOfRange ∧ t = s.setStatus (.faulted c info) := by
  rcases withOperands_next s h with ⟨hn, h⟩ | ⟨-, rfl⟩
  · rcases withReg_next s h with ⟨i, hi, h⟩ | ⟨-, rfl⟩
    · rcases withReg_next s h with ⟨j, hj, h⟩ | ⟨-, rfl⟩
      · exact .inl ⟨i, j, hi, hj, hn, h⟩
      · exact .inr ⟨_, _, by decide, rfl⟩
    · exact .inr ⟨_, _, by decide, rfl⟩
  · exact .inr ⟨_, _, by decide, rfl⟩

/-- Everything a control transfer can do: load the pc, advance it, or raise a fault; nothing else changes. -/
theorem branchInstruction_next {taken : Bool} {r : Byte} {t : State xlen} (h : branchInstruction taken r s = .next t) :
    (∃ i : RegIndex, i.val = r.toNat ∧ taken = true ∧ (s.reg i).toNat ≤ 255 ∧
      t = s.setPc (BitVec.ofNat 8 (s.reg i).toNat)) ∨
      (taken = false ∧ s.pc.toNat + 2 ≤ 255 ∧ t = s.setPc (BitVec.ofNat 8 (s.pc.toNat + 2))) ∨
      ∃ c info, t = s.setStatus (.faulted c info) := by
  rcases withOperands_next s h with ⟨-, h⟩ | ⟨-, rfl⟩
  · rcases withReg_next s h with ⟨i, hi, h⟩ | ⟨-, rfl⟩
    · cases taken with
      | true =>
        rw [if_pos rfl] at h
        rcases transfer_next s h with ⟨hv, rfl⟩ | ⟨-, rfl⟩
        · exact .inl ⟨i, hi, rfl, hv, rfl⟩
        · exact .inr (.inr ⟨_, _, rfl⟩)
      | false =>
        rw [if_neg (by simp)] at h
        rcases advance_next s h with ⟨hn, rfl⟩ | ⟨-, rfl⟩
        · exact .inr (.inl ⟨rfl, by omega, rfl⟩)
        · exact .inr (.inr ⟨_, _, rfl⟩)
    · exact .inr (.inr ⟨_, _, rfl⟩)
  · exact .inr (.inr ⟨_, _, rfl⟩)

end Sys2Proof.Machine
end

