-- ==== Sys2Proof/Laws/Fetch.lean ====
section
/-! SUPPORT. What fetch delivers, by where the pc stands, and the step by what was fetched. -/

namespace Sys2Proof.Machine

variable {xlen : Xlen} (s : State xlen)

/-- Three cells are there to fetch up to pc 253. -/
theorem fetchBytes_three (h : s.pc.toNat ≤ 253) : fetchBytes s = [opcodeAt s, operand1At s, operand2At s] := by
  simp [fetchBytes, opcodeAt, operand1At, operand2At, List.range', show s.pc.toNat < 256 by omega,
    show s.pc.toNat + 1 < 256 by omega, show s.pc.toNat + 1 + 1 < 256 by omega]

/-- Two at pc 254. -/
theorem fetchBytes_two (h : s.pc.toNat = 254) : fetchBytes s = [opcodeAt s, operand1At s] := by
  simp [fetchBytes, opcodeAt, operand1At, List.range', h]

/-- One at pc 255. -/
theorem fetchBytes_one (h : s.pc.toNat = 255) : fetchBytes s = [opcodeAt s] := by
  simp [fetchBytes, opcodeAt, List.range', h]

/-! ### The step for every register width -/

/-- A machine that is not RUNNING is stuck (40_cycle.md R90). -/
theorem stepAt_stuck (h : s.status ≠ .running) : ∃ f, stepAt s = .fault f := by
  unfold stepAt stepWith fetch
  cases hs : s.status with
  | running => exact absurd hs h
  | halted => exact ⟨_, rfl⟩
  | faulted c info => exact ⟨_, rfl⟩

/-- A step with a next state started RUNNING. -/
theorem stepAt_next_running {t : State xlen} (h : stepAt s = .next t) : s.status = .running := by
  by_contra hne
  obtain ⟨f, hf⟩ := stepAt_stuck s hne
  rw [hf] at h
  cases h

theorem stepAt_of_ok {i : Instr} {rest : List Byte} (hs : s.status = .running) (h : decode (fetchBytes s) = .ok i rest) :
    stepAt s = execute i s := by
  simp [stepAt, stepWith, fetch, hs, h]

theorem stepAt_of_unsupported {op : Byte} (hs : s.status = .running) (h : decode (fetchBytes s) = .unsupported op) :
    stepAt s = raise .unsupportedOperation op.toNat s := by
  simp [stepAt, stepWith, fetch, hs, h]

theorem stepAt_of_truncated (hs : s.status = .running) (h : decode (fetchBytes s) = .truncated) :
    stepAt s = raise .operandFetchOutOfRange s.pc.toNat s := by
  simp [stepAt, stepWith, fetch, hs, h]

/-! ### This hardware: the default width -/

/-- `exec` is `execute` at the default width. -/
theorem exec_eq_execute (i : Instr) (s : State) : exec i s = execute i s := by cases i <;> rfl

/-- `step` is `stepAt` at the default width. -/
theorem step_eq_stepAt (s : State) : step s = stepAt s :=
  congrArg (stepWith · s) (funext fun i => funext (exec_eq_execute i))

/-- A step of this hardware with a next state started RUNNING. -/
theorem step_next_running {s t : State} (h : step s = .next t) : s.status = .running :=
  stepAt_next_running s (step_eq_stepAt s ▸ h)

end Sys2Proof.Machine
end

