-- ==== Sys2Proof/Laws/PerInstr.lean ====
section
/-! SUPPORT. Facts about every instruction as syntax, one lemma per constructor. -/

namespace Sys2Proof.Laws.OperandCountMatches

/-- The operand-count field of the opcode byte counts the operand bytes that follow, so the generic advance
`1 + opcode[7:6]` is the instruction's length (40_cycle.md R91; 30_encoding.md R67, check 1). -/
def Statement (i : Instr) : Prop :=
  operandCount i.opcode.byte = i.operandBytes.length

theorem hlt : Statement .hlt := by
  simp [Statement, operandCount, Instr.opcode, Opcode.byte, Instr.operandBytes]

theorem ldi (r imm : Byte) : Statement (.ldi r imm) := by
  simp [Statement, operandCount, Instr.opcode, Opcode.byte, Instr.operandBytes]

theorem prn (r : Byte) : Statement (.prn r) := by
  simp [Statement, operandCount, Instr.opcode, Opcode.byte, Instr.operandBytes]

theorem add (a b : Byte) : Statement (.add a b) := by
  simp [Statement, operandCount, Instr.opcode, Opcode.byte, Instr.operandBytes]

theorem mul (a b : Byte) : Statement (.mul a b) := by
  simp [Statement, operandCount, Instr.opcode, Opcode.byte, Instr.operandBytes]

theorem cmp (a b : Byte) : Statement (.cmp a b) := by
  simp [Statement, operandCount, Instr.opcode, Opcode.byte, Instr.operandBytes]

theorem jmp (r : Byte) : Statement (.jmp r) := by
  simp [Statement, operandCount, Instr.opcode, Opcode.byte, Instr.operandBytes]

theorem jeq (r : Byte) : Statement (.jeq r) := by
  simp [Statement, operandCount, Instr.opcode, Opcode.byte, Instr.operandBytes]

theorem jne (r : Byte) : Statement (.jne r) := by
  simp [Statement, operandCount, Instr.opcode, Opcode.byte, Instr.operandBytes]

end Sys2Proof.Laws.OperandCountMatches
end

