-- ==== Sys2Proof/Laws/Run.lean ====
section
/-! SUPPORT. Runs: determinism, the last step of a run, the host's own run, and the one induction over runs. -/

namespace Sys2Proof

open Sys2Proof.Machine

/-- What holds of every state and is kept when a step is put before a run holds of every run. -/
theorem runsTo_induction {P : State → State → Prop} (refl : ∀ s, P s s)
    (head : ∀ s u t, step s = .next u → P u t → P s t) : ∀ k s t, RunsTo k s t → P s t := by
  intro k
  induction k with
  | zero =>
    rintro s t rfl
    exact refl s
  | succ k ih =>
    rintro s t ⟨u, hu, h⟩
    exact head s u t hu (ih u t h)

/-- A run of `k` steps has one end. -/
theorem runsTo_unique {k : Nat} {s t t' : State} (h : RunsTo k s t) (h' : RunsTo k s t') : t = t' := by
  induction k generalizing s with
  | zero => exact h.symm.trans h'
  | succ k ih =>
    obtain ⟨u, hu, hr⟩ := h
    obtain ⟨u', hu', hr'⟩ := h'
    cases hu.symm.trans hu'
    exact ih hr hr'

/-- A run one step longer ends with a step. -/
theorem runsTo_succ_last {k : Nat} {s t : State} :
    RunsTo (k + 1) s t ↔ ∃ u, RunsTo k s u ∧ step u = .next t := by
  induction k generalizing s with
  | zero =>
    constructor
    · rintro ⟨v, hv, rfl⟩
      exact ⟨s, rfl, hv⟩
    · rintro ⟨u, rfl, hu⟩
      exact ⟨t, hu, rfl⟩
  | succ k ih =>
    constructor
    · rintro ⟨v, hv, h⟩
      obtain ⟨u, hu, hut⟩ := ih.1 h
      exact ⟨u, ⟨v, hv, hu⟩, hut⟩
    · rintro ⟨u, ⟨v, hv, hu⟩, hut⟩
      exact ⟨v, hv, ih.2 ⟨u, hu, hut⟩⟩

/-- `RunsTo` is the host's run of the machine. -/
theorem runsTo_iff_core_run (k : Nat) (s t : State) : RunsTo k s t ↔ Host.Core.run core k s = .next t := by
  induction k generalizing s with
  | zero => exact ⟨fun h => congrArg Host.Outcome.next h, fun h => Host.Outcome.next.inj h⟩
  | succ k ih =>
    have hcore : core.step s = step s := rfl
    simp only [RunsTo, Host.Core.run, hcore]
    cases step s with
    | next u => simp [ih]
    | fault f => simp
    | refused r => simp

end Sys2Proof
end

