-- ==== Sys2Proof/Tests/Slice0.lean ====
section
/-! SUPPORT. Tests. The expected values are those of 95_test_vectors.md (the vector's id stands with each) and of the
encodings of 30_encoding.md; after them, for every statement with hypotheses, a state that meets them. -/

namespace Sys2Proof.Tests

open Sys2Proof.Machine

/-- The reset state with the pc at `pc`, bytes there, and the registers given. -/
def placed (pc : Nat) (bytes : List Byte) (x : Vector Word 8 := Vector.replicate 8 0) : State :=
  { State.reset with pc := BitVec.ofNat 8 pc, imem := Memory.writeBytes [] pc bytes, x := x }

/-- `s` with the flags `(E, L, G)`. -/
def flagged (e l g : Bool) (s : State) : State :=
  { s with fl := ⟨e, l, g⟩ }

/-- Registers of 16 bits. -/
abbrev wide : Xlen := { bits := 16, eight_le := by decide }

/-- `placed`, on a machine with 16-bit registers. -/
def placedWide (pc : Nat) (bytes : List Byte) (x : Vector (Word wide) 8 := Vector.replicate 8 0) : State wide :=
  { State.construct wide with pc := BitVec.ofNat 8 pc, imem := Memory.writeBytes [] pc bytes, x := x }

/-- What a vector of the spec records of the state after a step. -/
structure Seen where
  x : List Nat
  pc : Nat
  flags : Bool × Bool × Bool
  status : Status
  out : List Nat
  deriving DecidableEq, Repr

/-- What is seen of an outcome; none where it is no next state. -/
def seen {xlen : Xlen} (r : Result xlen) : Option Seen :=
  match r with
  | .next t => some ⟨t.x.toList.map (·.toNat), t.pc.toNat, (t.fl.e, t.fl.l, t.fl.g), t.status, t.out.map (·.toNat)⟩
  | .fault _ => none
  | .refused _ => none

/-! ### WellFormed: an ill-formed term for each check -/

theorem test_wellFormed_accepts : (Instr.cmp 0 7).wellFormed = true ∧ (Instr.ldi 7 255).wellFormed = true := by decide

theorem test_wellFormed_refuses :
    (Instr.ldi 8 0).wellFormed = false ∧ (Instr.prn 8).wellFormed = false ∧ (Instr.add 8 0).wellFormed = false ∧
    (Instr.add 0 8).wellFormed = false ∧ (Instr.mul 255 0).wellFormed = false ∧ (Instr.mul 0 255).wellFormed = false ∧
    (Instr.cmp 8 0).wellFormed = false ∧ (Instr.cmp 0 8).wellFormed = false ∧ (Instr.jmp 8).wellFormed = false ∧
    (Instr.jeq 9 ).wellFormed = false ∧ (Instr.jne 128).wellFormed = false := by decide

/-! ### Decode: every constructor from a word written out from its encoding (30_encoding.md R62, R67) -/

theorem test_decode_hlt : decode [0b00000001] = .ok .hlt [] := by decide
theorem test_decode_ldi : decode [0b10000010, 0b00000111, 0b11111111] = .ok (.ldi 7 255) [] := by decide
theorem test_decode_prn : decode [0b01000111, 0b00000101] = .ok (.prn 5) [] := by decide
theorem test_decode_add : decode [0b10100000, 0b00000111, 0b00000000] = .ok (.add 7 0) [] := by decide
theorem test_decode_mul : decode [0b10100010, 0b00000100, 0b00000011] = .ok (.mul 4 3) [] := by decide
theorem test_decode_cmp : decode [0b10100111, 0b00000110, 0b00000111] = .ok (.cmp 6 7) [] := by decide
theorem test_decode_jmp : decode [0b01010100, 0b00000011] = .ok (.jmp 3) [] := by decide
theorem test_decode_jeq : decode [0b01010101, 0b00000001] = .ok (.jeq 1) [] := by decide
theorem test_decode_jne : decode [0b01010110, 0b00000010, 0b11111111] = .ok (.jne 2) [255] := by decide

/-- V-DEC: neighbours, other operand counts, and `n = 3` are not instructions. -/
theorem test_decode_unsupported :
    ([0x00, 0x02, 0x07, 0x03, 0x14, 0x15, 0x16, 0x41, 0x42, 0xC2, 0x46, 0x48, 0x53, 0x57, 0x60, 0x62, 0x67, 0x80, 0x81,
      0x83, 0x87, 0xA1, 0xA3, 0xA6, 0xA8, 0x94, 0x95, 0x96, 0xC0, 0xC1, 0xE0, 0xFF] : List Byte).all
      (fun b => decide (decode [b, 0, 0] = .unsupported b)) = true := by decide

/-- V-DEC: exactly 9 of the 256 byte values decode. -/
theorem test_decode_nine :
    ((List.range 256).filter fun b => (Opcode.ofByte? (BitVec.ofNat 8 b)).isSome).length = 9 := by decide

theorem test_decodeTableWord :
    decodeTableWord 24 0xFF0782 = some (.ldi 7 255) ∧ decodeTableWord 8 0x54 = some (.jmp 0) ∧
    decodeTableWord 8 0xC2 = none := by decide

/-! ### Instructions (95_test_vectors.md section V) -/

/-- V-LDI-2: the immediate is unsigned. -/
theorem test_ldi_unsigned : seen (step (placed 10 [0x82, 7, 0xFF])) =
    some ⟨[0, 0, 0, 0, 0, 0, 0, 255], 13, (false, false, false), .running, []⟩ := by decide

/-- V-LDI-7: at 253 the register is written and the advance faults. -/
theorem test_ldi_at_253 : seen (step (placed 253 [0x82, 1, 7])) =
    some ⟨[0, 7, 0, 0, 0, 0, 0, 0], 253, (false, false, false), .faulted .pcOutOfRange 256, []⟩ := by decide

/-- V-PRN-3: output is appended, oldest first. -/
theorem test_prn_appends : seen (step { placed 0 [0x47, 1] #v[0, 255, 0, 0, 0, 0, 0, 0] with out := [7] }) =
    some ⟨[0, 255, 0, 0, 0, 0, 0, 0], 2, (false, false, false), .running, [7, 255]⟩ := by decide

/-- V-PRN-6: at 255 the operand does not exist; nothing is printed. -/
theorem test_prn_at_255 : seen (step (placed 255 [0x47])) =
    some ⟨[0, 0, 0, 0, 0, 0, 0, 0], 255, (false, false, false), .faulted .operandFetchOutOfRange 255, []⟩ := by decide

/-- V-HLT-3: HLT in cell 255 halts with pc 0. -/
theorem test_hlt_at_255 : seen (step (placed 255 [0x01])) =
    some ⟨[0, 0, 0, 0, 0, 0, 0, 0], 0, (false, false, false), .halted, []⟩ := by decide

/-- V-HLT-4: a HALTED machine has no step. -/
theorem test_hlt_terminal : seen (step { placed 0 [0x01] with status := .halted }) = none := by decide

/-- V-CMP-4: the comparison sets L and leaves the stale E. -/
theorem test_cmp_sticky : seen (step (flagged true false false (placed 0 [0xA7, 0, 2] #v[5, 0, 7, 0, 0, 0, 0, 0]))) =
    some ⟨[5, 0, 7, 0, 0, 0, 0, 0], 3, (true, true, false), .running, []⟩ := by decide

/-- V-CMP-9: 200 > 100 as unsigned numbers. -/
theorem test_cmp_unsigned : seen (step (placed 0 [0xA7, 0, 1] #v[200, 100, 0, 0, 0, 0, 0, 0])) =
    some ⟨[200, 100, 0, 0, 0, 0, 0, 0], 3, (false, false, true), .running, []⟩ := by decide

/-- V-ADD-5: source and destination the same, and a wrap. -/
theorem test_add_self_wraps : seen (step (placed 0 [0xA0, 2, 2] #v[0, 0, 200, 0, 0, 0, 0, 0])) =
    some ⟨[0, 0, 144, 0, 0, 0, 0, 0], 3, (false, false, false), .running, []⟩ := by decide

/-- V-ADD-9: the first operand is the destination. -/
theorem test_add_destination : seen (step (placed 0 [0xA0, 7, 0] #v[4, 0, 0, 0, 0, 0, 0, 3])) =
    some ⟨[4, 0, 0, 0, 0, 0, 0, 7], 3, (false, false, false), .running, []⟩ := by decide

/-- V-MUL-3: 20000 mod 256. -/
theorem test_mul_wraps : seen (step (placed 0 [0xA2, 0, 1] #v[200, 100, 0, 0, 0, 0, 0, 0])) =
    some ⟨[32, 100, 0, 0, 0, 0, 0, 0], 3, (false, false, false), .running, []⟩ := by decide

/-- V-MUL-11: operand 1 above 7. -/
theorem test_mul_bad_index : seen (step (placed 0 [0xA2, 9, 0])) =
    some ⟨[0, 0, 0, 0, 0, 0, 0, 0], 0, (false, false, false), .faulted .registerIndexOutOfRange 9, []⟩ := by decide

/-- V-JMP-3: a taken branch in the last cells does not advance. -/
theorem test_jmp_at_254 : seen (step (placed 254 [0x54, 0] #v[7, 0, 0, 0, 0, 0, 0, 0])) =
    some ⟨[7, 0, 0, 0, 0, 0, 0, 0], 7, (false, false, false), .running, []⟩ := by decide

/-- V-JEQ-3: L and G play no part. -/
theorem test_jeq_untaken : seen (step (flagged false true true (placed 18 [0x55, 3] #v[0, 0, 0, 23, 0, 0, 0, 0]))) =
    some ⟨[0, 0, 0, 23, 0, 0, 0, 0], 20, (false, true, true), .running, []⟩ := by decide

/-- V-JEQ-7: the index is checked although the branch is not taken. -/
theorem test_jeq_bad_index : seen (step (placed 0 [0x55, 9])) =
    some ⟨[0, 0, 0, 0, 0, 0, 0, 0], 0, (false, false, false), .faulted .registerIndexOutOfRange 9, []⟩ := by decide

/-- V-JNE-1: taken while E is 0, whatever L is. -/
theorem test_jne_taken : seen (step (flagged false true false (placed 20 [0x56, 3] #v[0, 0, 0, 12, 0, 0, 0, 0]))) =
    some ⟨[0, 0, 0, 12, 0, 0, 0, 0], 12, (false, true, false), .running, []⟩ := by decide

/-- V-JNE-5: untaken at 254, the advance faults. -/
theorem test_jne_at_254 : seen (step (flagged true false false (placed 254 [0x56, 0]))) =
    some ⟨[0, 0, 0, 0, 0, 0, 0, 0], 254, (true, false, false), .faulted .pcOutOfRange 256, []⟩ := by decide

/-- 43_alu.md R121 with `XLEN = 16`: the product of V-MUL-3, 20000, fits. -/
theorem test_mul_wide : seen (stepAt (placedWide 0 [0xA2, 0, 1] #v[200, 100, 0, 0, 0, 0, 0, 0])) =
    some ⟨[20000, 100, 0, 0, 0, 0, 0, 0], 3, (false, false, false), .running, []⟩ := by decide

/-- 44_control_transfer.md R134 with `XLEN = 16`: a target of 256 faults, the pc stays, nothing is truncated. -/
theorem test_jmp_wide : seen (stepAt (placedWide 9 [0x54, 1] #v[0, 256, 0, 0, 0, 0, 0, 0])) =
    some ⟨[0, 256, 0, 0, 0, 0, 0, 0], 9, (false, false, false), .faulted .pcOutOfRange 256, []⟩ := by decide

/-- 30_encoding.md R64 with `XLEN = 16`: the immediate is zero-extended over the whole register. -/
theorem test_ldi_wide : seen (stepAt (placedWide 0 [0x82, 2, 0xFF] #v[0, 0, 0x1234, 0, 0, 0, 0, 0])) =
    some ⟨[0, 0, 255, 0, 0, 0, 0, 0], 3, (false, false, false), .running, []⟩ := by decide

/-- V-DEC, last row: an unsupported byte at 255 is not an operand fault. -/
theorem test_unsupported_at_255 : seen (step (placed 255 [0xA1])) =
    some ⟨[0, 0, 0, 0, 0, 0, 0, 0], 255, (false, false, false), .faulted .unsupportedOperation 0xA1, []⟩ := by decide

/-- 70_reset_and_hazards.md R173: a loaded byte is at its address, everything after it 0, and the store lists only
nonzero bytes. -/
theorem test_boot : boot [0x82, 0, 10] = .next { State.reset with imem := [(0, 0x82), (2, 10)] } := by rfl

/-! ### Witnesses: states that meet the hypotheses of each statement, clause by clause -/

theorem witness_DecodeAcceptsExactlyTheEncodings : decode (encode (.ldi 7 255) ++ [1]) = .ok (.ldi 7 255) [1] := by decide

theorem witness_UnsupportedExactlyOutsideTheNine : 192 ≤ (0xC0#8 : Byte).toNat ∧ 192 ≤ (0xFF#8 : Byte).toNat := by decide

theorem witness_ResetGivesTheConstructionState :
    (List.replicate 256 (1 : Byte)).length ≤ 256 ∧ ([] : List Byte).length ≤ 256 :=
  ⟨List.length_replicate.le, by decide⟩

theorem witness_OverlongImageIsRefused : 256 < (List.replicate 257 (1 : Byte)).length := by
  rw [List.length_replicate]
  omega

theorem witness_FirstFetchIsAtAddressZero :
    (∃ t, hostReset [] (placed 9 [1]) = .next t) ∧ ([] : List Byte).getD 0 0 ∉ supportedBytes :=
  ⟨⟨_, rfl⟩, by decide⟩

theorem witness_StepRunsTheDecodedInstruction :
    (placed 253 [0x82, 7, 255]).status = .running ∧
    decode (fetchBytes (placed 253 [0x82, 7, 255])) = .ok (.ldi 7 255) [] ∧
    (placedWide 255 [0x01]).status = .running ∧ decode (fetchBytes (placedWide 255 [0x01])) = .ok .hlt [] := by decide

theorem witness_StepIsThePseudocode :
    (placed 255 [0x47]).status = .running ∧ (placedWide 255 [0x47]).status = .running := by decide

/-- Two machines that differ in L, in the output and in a cell the step does not read. -/
theorem witness_StepDependsOnlyOnItsInputs :
    let s := flagged true false true (placed 5 [0xA7, 0, 1, 9])
    let s' := { flagged true true true (placed 5 [0xA7, 0, 1]) with out := [3] }
    s.status = .running ∧ s'.status = .running ∧ s.x = s'.x ∧ s.pc = s'.pc ∧ s.fl.e = s'.fl.e ∧ s ≠ s' ∧
      ∀ k, k ≤ 2 → s.pc.toNat + k ≤ 255 → s.imem.read (s.pc.toNat + k) = s'.imem.read (s.pc.toNat + k) := by decide

theorem witness_UnsupportedOpcodeRaises :
    (placed 255 [0xC0]).status = .running ∧ opcodeAt (placed 255 [0xC0]) ∉ supportedBytes := by decide

theorem witness_OperandFetchPastTheEndRaises :
    (let s := placed 255 [0x54]
     s.status = .running ∧ opcodeAt s ∈ supportedBytes ∧ s.pc.toNat + countAt s > 255) ∧
    (let s := placed 254 [0xA0, 0]
     s.status = .running ∧ opcodeAt s ∈ supportedBytes ∧ s.pc.toNat + countAt s > 255) ∧
    (let s := placed 255 [0x01]
     s.status = .running ∧ opcodeAt s = 0x01#8 ∧ (seen (step s)).isSome = true) := by decide

theorem witness_RegisterIndexIsChecked :
    (let s := placed 254 [0x56, 8]
     s.status = .running ∧ opcodeAt s ∈ supportedBytes ∧ opcodeAt s ≠ 0x01#8 ∧ s.pc.toNat + countAt s ≤ 255 ∧
       7 < (operand1At s).toNat) ∧
    (let s := placed 253 [0xA7, 7, 8]
     s.status = .running ∧ aluAt s = true ∧ s.pc.toNat + 2 ≤ 255 ∧ (operand1At s).toNat ≤ 7 ∧
       7 < (operand2At s).toNat) ∧
    (let s := placed 0 [0x82, 7, 8]
     s.status = .running ∧ opcodeAt s = 0x82#8 ∧ (operand1At s).toNat ≤ 7 ∧ (seen (step s)).isSome = true) := by decide

theorem witness_DefaultAdvanceOrTarget :
    (let s := placed 252 [0xA0, 7, 7]
     s.status = .running ∧ opcodeAt s ∈ supportedBytes ∧ opcodeAt s ≠ 0x01#8 ∧ ¬ takenAt s ∧ Rule80.operandsValid s ∧
       s.pc.toNat + 1 + countAt s ≤ 255) ∧
    (let s := placed 253 [0x55, 7]
     s.status = .running ∧ opcodeAt s ∈ supportedBytes ∧ opcodeAt s ≠ 0x01#8 ∧ ¬ takenAt s ∧ Rule80.operandsValid s ∧
       s.pc.toNat + 1 + countAt s ≤ 255) ∧
    (let s := placed 254 [0x56, 7]
     s.status = .running ∧ takenAt s ∧ Rule80.operandsValid s) := by decide

theorem witness_AdvancePastTheEndRaises :
    (let s := placed 253 [0xA2, 7, 7]
     s.status = .running ∧ opcodeAt s ∈ supportedBytes ∧ opcodeAt s ≠ 0x01#8 ∧ ¬ takenAt s ∧ Rule80.operandsValid s ∧
       s.pc.toNat + 1 + countAt s > 255) ∧
    (let s := placed 254 [0x54, 7]
     s.status = .running ∧ takenAt s ∧ (seen (step s)).isSome = true) := by decide

/-- One state for each of the six clauses. -/
theorem witness_FirstFaultConditionIsReported :
    (let s := placed 255 [0x00]
     s.status = .running ∧ (seen (step s)).isSome = true ∧ opcodeAt s ∉ supportedBytes) ∧
    (let s := placed 254 [0xA7, 9]
     s.status = .running ∧ (seen (step s)).isSome = true ∧ opcodeAt s ∈ supportedBytes ∧ s.pc.toNat + countAt s > 255) ∧
    (let s := placed 253 [0xA7, 8, 9]
     s.status = .running ∧ (seen (step s)).isSome = true ∧ opcodeAt s ∈ supportedBytes ∧
       s.pc.toNat + countAt s ≤ 255 ∧ 1 ≤ countAt s ∧ 7 < (operand1At s).toNat) ∧
    (let s := placed 253 [0xA7, 7, 8]
     s.status = .running ∧ (seen (step s)).isSome = true ∧ aluAt s ∧ s.pc.toNat + countAt s ≤ 255 ∧
       (operand1At s).toNat ≤ 7 ∧ 7 < (operand2At s).toNat) ∧
    (let s := placed 253 [0xA7, 7, 7]
     s.status = .running ∧ (seen (step s)).isSome = true ∧ opcodeAt s ∈ supportedBytes ∧ opcodeAt s ≠ 0x01#8 ∧
       Rule80.operandsValid s ∧ ¬ takenAt s ∧ s.pc.toNat + countAt s = 255) ∧
    (let s := placed 252 [0xA7, 7, 7]
     s.status = .running ∧ (seen (step s)).isSome = true ∧ opcodeAt s ∈ supportedBytes ∧ Rule80.operandsValid s ∧
       (opcodeAt s = 0x01#8 ∨ takenAt s ∨ s.pc.toNat + countAt s ≤ 254)) := by decide

theorem witness_FaultsArePrecise :
    ((placed 0 [0x42]).status = .running ∧ ∃ t, step (placed 0 [0x42]) = .next t ∧
      t.status = .faulted .unsupportedOperation 0x42) ∧
    ((placed 253 [0x82, 7, 9]).status = .running ∧ ∃ t, step (placed 253 [0x82, 7, 9]) = .next t ∧
      t.status = .faulted .pcOutOfRange 256) :=
  ⟨⟨rfl, _, rfl, rfl⟩, ⟨rfl, _, rfl, rfl⟩⟩

/-- F14: with nothing loaded the first step faults at once. -/
theorem test_empty_program : step State.reset =
    .next { State.reset with status := .faulted .unsupportedOperation 0 } := by rfl

theorem test_cause_codes : Cause.unsupportedOperation.code = 1 ∧ Cause.operandFetchOutOfRange.code = 2 ∧
    Cause.registerIndexOutOfRange.code = 3 ∧ Cause.pcOutOfRange.code = 4 := by decide

theorem witness_StatusTransitions :
    (∃ t, step (placed 0 [0x01]) = .next t) ∧ ({ placed 0 [0x01] with status := .halted } : State).status ≠ .running :=
  ⟨⟨_, rfl⟩, by decide⟩

theorem witness_LdiFollowsItsRule :
    254 ≤ (placed 254 []).pc.toNat ∧ ((placed 253 []).pc.toNat ≤ 253 ∧ 7 < (8#8 : Byte).toNat) ∧
    ((placed 253 []).pc.toNat = 253 ∧ (7#8 : Byte).toNat < 8) ∧
    ((placed 252 []).pc.toNat ≤ 252 ∧ (7#8 : Byte).toNat < 8) := by decide

theorem witness_PrnFollowsItsRule :
    (placed 255 []).pc.toNat = 255 ∧ ((placed 254 []).pc.toNat ≤ 254 ∧ 7 < (8#8 : Byte).toNat) ∧
    ((placed 254 []).pc.toNat = 254 ∧ (7#8 : Byte).toNat < 8) ∧
    ((placed 253 []).pc.toNat ≤ 253 ∧ (7#8 : Byte).toNat < 8) := by decide

theorem witness_HltFollowsItsRule :
    (∃ t, exec .hlt (placed 255 [0x01]) = .next t) ∧ ∃ t, step (placed 255 [0x01]) = .next t ∧ t.status = .halted :=
  ⟨⟨_, rfl⟩, _, rfl, rfl⟩

/-- For CMP, ADD and MUL: the clauses they share, with the sum and product of 255 and 255 as the values. -/
theorem witness_AluRules :
    254 ≤ (placed 254 []).pc.toNat ∧ ((placed 253 []).pc.toNat ≤ 253 ∧ 7 < (8#8 : Byte).toNat) ∧
    ((placed 253 []).pc.toNat ≤ 253 ∧ (7#8 : Byte).toNat ≤ 7 ∧ 7 < (8#8 : Byte).toNat) ∧
    (placed 253 []).pc.toNat = 253 ∧ (placed 252 []).pc.toNat ≤ 252 ∧ (7#8 : Byte).toNat < 8 ∧
    (let s := placed 252 [] (Vector.replicate 8 255)
     (254 : Word).toNat = (s.x[(7#8 : Byte).toNat].toNat + s.x[(7#8 : Byte).toNat].toNat) % 2 ^ Config.xlen.bits ∧
     (1 : Word).toNat = (s.x[(7#8 : Byte).toNat].toNat * s.x[(7#8 : Byte).toNat].toNat) % 2 ^ Config.xlen.bits) := by decide

theorem witness_JmpFollowsItsRule :
    (placed 255 []).pc.toNat = 255 ∧ ((placed 254 []).pc.toNat ≤ 254 ∧ 7 < (8#8 : Byte).toNat) ∧
    (let s := placed 254 [] (Vector.replicate 8 255)
     s.pc.toNat ≤ 254 ∧ (7#8 : Byte).toNat < 8 ∧ (255 : Pc).toNat = s.x[(7#8 : Byte).toNat].toNat) := by decide

/-- For JEQ (taken with E = 1) and JNE (taken with E = 0): each clause. -/
theorem witness_ConditionalJumpRules :
    (placed 255 []).pc.toNat = 255 ∧ ((placed 254 []).pc.toNat ≤ 254 ∧ 7 < (8#8 : Byte).toNat) ∧
    (let s := flagged true false false (placed 254 [] (Vector.replicate 8 255))
     s.pc.toNat ≤ 254 ∧ (7#8 : Byte).toNat < 8 ∧ s.fl.e = true ∧ (255 : Pc).toNat = s.x[(7#8 : Byte).toNat].toNat) ∧
    (let s := placed 254 [] (Vector.replicate 8 255)
     s.pc.toNat ≤ 254 ∧ (7#8 : Byte).toNat < 8 ∧ s.fl.e = false ∧ (255 : Pc).toNat = s.x[(7#8 : Byte).toNat].toNat) ∧
    (let s := placed 254 []
     s.pc.toNat = 254 ∧ (7#8 : Byte).toNat ≤ 7 ∧ s.fl.e = false ∧ (flagged true false false s).fl.e = true) ∧
    (let s := placed 253 []
     s.pc.toNat ≤ 253 ∧ (7#8 : Byte).toNat ≤ 7 ∧ s.fl.e = false ∧ (flagged true false false s).fl.e = true) := by decide

theorem witness_EveryInstructionAnswersANextState :
    ((Instr.cmp 7 7).wellFormed = true ∧ (placed 252 []).status = .running ∧
      (placed 252 []).pc.toNat + (encode (.cmp 7 7)).length ≤ 255) ∧
    (Instr.hlt.wellFormed = true ∧ (placed 254 []).status = .running ∧
      (placed 254 []).pc.toNat + (encode .hlt).length ≤ 255) := by decide

theorem witness_RegisterWritersFrame :
    (∃ t, exec (.ldi 7 255) (placed 253 []) = .next t) ∧ (∃ t, exec (.add 7 0) (placed 0 []) = .next t) ∧
    ∃ t, exec (.mul 8 0) (placed 0 []) = .next t :=
  ⟨⟨_, rfl⟩, ⟨_, rfl⟩, ⟨_, rfl⟩⟩

theorem witness_CmpFrame : ∃ t, exec (.cmp 7 0) (placed 253 []) = .next t := ⟨_, rfl⟩

theorem witness_PrnFrame : ∃ t, exec (.prn 7) (placed 254 []) = .next t := ⟨_, rfl⟩

theorem witness_ControlTransferFrame :
    (∃ t, exec (.jmp 7) (placed 254 []) = .next t) ∧ (∃ t, exec (.jeq 8) (placed 254 []) = .next t) ∧
    ∃ t, exec (.jne 0) (placed 254 []) = .next t :=
  ⟨⟨_, rfl⟩, ⟨_, rfl⟩, ⟨_, rfl⟩⟩

theorem witness_HltFrame : ∃ t, exec .hlt (placed 255 []) = .next t := ⟨_, rfl⟩

theorem witness_TransferTargetRange : 255 < (256 : Word wide).toNat ∧ (255 : Word wide).toNat ≤ 255 := by decide

theorem witness_TakenTransferForEveryWidth :
    (let s := placedWide 254 [0x56, 7] (Vector.replicate 8 256)
     s.status = .running ∧ takenAt s ∧ Rule80.operandsValid s ∧ 255 < (regNamed s (operand1At s)).toNat) ∧
    (let s := placedWide 254 [0x56, 7] (Vector.replicate 8 255)
     s.status = .running ∧ takenAt s ∧ Rule80.operandsValid s ∧ (regNamed s (operand1At s)).toNat ≤ 255) := by decide

theorem witness_LdiKeepsTheImmediateForEveryWidth :
    (7#8 : Byte).toNat < 8 ∧ (placedWide 253 []).pc.toNat ≤ 253 := by decide

theorem witness_BranchToItselfLoopsForever :
    let s := placed 254 [0x56, 7] (Vector.replicate 8 254)
    s.status = .running ∧ takenAt s ∧ s.pc.toNat ≤ 254 ∧ (operand1At s).toNat ≤ 7 ∧
      (regNamed s (operand1At s)).toNat = s.pc.toNat := by decide

theorem witness_InvariantHoldsAfterLoading : ∃ t, hostReset [0x01, 0, 255] State.reset = .next t := ⟨_, rfl⟩

theorem witness_StepKeepsTheInvariant :
    (Inv (placed 255 [0x01]) ∧ ∃ t, step (placed 255 [0x01]) = .next t) ∧
    (let s := placedWide 254 [0x54, 7] (Vector.replicate 8 256)
     Inv s ∧ ∃ t, stepAt s = .next t ∧ t.status = .faulted .pcOutOfRange 256) :=
  ⟨⟨⟨by decide, trivial⟩, _, rfl⟩, ⟨by decide, trivial⟩, _, rfl, rfl⟩

theorem witness_InstructionStoreIsConstant : ∃ t, RunsTo 2 (placed 0 [0x47, 0, 0x01]) t := ⟨_, _, rfl, _, rfl, rfl⟩

theorem witness_OnlyCmpWritesFlags :
    (∃ t, step (placed 0 [0xA0, 0, 1]) = .next t) ∧ opcodeAt (placed 0 [0xA0, 0, 1]) ≠ 0xA7#8 :=
  ⟨⟨_, rfl⟩, by decide⟩

theorem witness_FlagsAreSticky :
    ∃ t, RunsTo 1 (flagged true true true (placed 0 [0xA7, 0, 1])) t := ⟨_, _, rfl, rfl⟩

theorem witness_LessAndGreaterNeverInfluenceARun :
    let s := flagged true true false (placed 0 [0x55, 0])
    let s' := flagged true false true (placed 0 [0x55, 0])
    { s' with fl := s.fl } = s ∧ s'.fl.e = s.fl.e ∧ ∃ t, RunsTo 1 s t :=
  ⟨rfl, rfl, _, _, rfl, rfl⟩

theorem witness_EqualFlagSettlesEveryLaterBranch :
    (let s := flagged true false false (placed 0 [0x55, 0])
     s.fl.e = true ∧ RunsTo 0 s s ∧ opcodeAt s = 0x55#8 ∧ ∃ u, step s = .next u ∧ u.status = .running) ∧
    (let s := flagged true false false (placed 253 [0x56, 0])
     s.fl.e = true ∧ RunsTo 0 s s ∧ opcodeAt s = 0x56#8 ∧ ∃ u, step s = .next u ∧ u.status = .running) :=
  ⟨⟨rfl, rfl, by decide, _, rfl, rfl⟩, ⟨rfl, rfl, by decide, _, rfl, rfl⟩⟩

theorem witness_OutputGrowsOnlyByPrn : ∃ t, step (placed 254 [0x47, 7]) = .next t := ⟨_, rfl⟩

theorem witness_HaltedOnlyByExecutingHlt :
    (placed 255 [0x01]).status = .running ∧ ∃ t, RunsTo 1 (placed 255 [0x01]) t ∧ t.status = .halted :=
  ⟨rfl, _, ⟨_, rfl, rfl⟩, rfl⟩

/-- A run of each kind. -/
theorem witness_EveryRunEndsInExactlyOneWay :
    (placed 0 [0x01]).status = .running ∧ Halts (placed 0 [0x01]) ∧
    FaultsWith (placed 0 [0xC0]) .unsupportedOperation 0xC0 ∧ RunsForever (placed 0 [0x54, 0]) :=
  ⟨rfl, ⟨1, _, ⟨_, rfl, rfl⟩, rfl⟩, ⟨1, _, ⟨_, rfl, rfl⟩, rfl⟩, fun k => ⟨placed 0 [0x54, 0], by
    induction k with
    | zero => rfl
    | succ k ih => exact ⟨_, rfl, ih⟩, rfl⟩⟩

theorem witness_Adding255CountsDown :
    let s := placed 252 [] #v[5, 0, 0, 0, 0, 0, 0, 255]
    (0#8 : Byte).toNat < 8 ∧ (7#8 : Byte).toNat < 8 ∧ s.pc.toNat ≤ 252 ∧ s.x[(7#8 : Byte).toNat] = 255 := by decide

theorem witness_StoredWordIsTheNextInstruction : decodeTableWord 24 0xFF0782 = some (.ldi 7 255) := by decide

end Sys2Proof.Tests
end

section
/-! The step is total on RUNNING machines: every shared operation, and so every instruction, answers a next state
(40_cycle.md R90, R91); a fault it raises is a next state too (60_exceptions.md R140). -/

namespace Sys2Proof.Machine

variable {xlen : Xlen} (s : State xlen)

theorem withOperands_exists_next {n : Nat} {k : Result xlen} (hk : ∃ t, k = .next t) :
    ∃ t, withOperands n s k = .next t := by
  by_cases hn : s.pc.toNat + n ≤ 255
  · rwa [withOperands_fits s k hn]
  · exact ⟨_, withOperands_past s k (by omega)⟩

theorem withReg_exists_next {o : Byte} {k : RegIndex → Result xlen} (hk : ∀ i, ∃ t, k i = .next t) :
    ∃ t, withReg o s k = .next t := by
  by_cases ho : o.toNat < 8
  · rw [withReg_of_lt s k ho]
    exact hk _
  · exact ⟨_, withReg_of_gt s k (by omega)⟩

theorem advance_exists_next (n : Nat) : ∃ t, advance n s = .next t := by
  by_cases hn : s.pc.toNat + 1 + n ≤ 255
  · exact ⟨_, advance_fits s hn⟩
  · exact ⟨_, advance_past s (by omega)⟩

theorem transfer_exists_next (v : Word xlen) : ∃ t, transfer v s = .next t := by
  by_cases hv : v.toNat ≤ 255
  · exact ⟨_, transfer_fits s hv⟩
  · exact ⟨_, transfer_past s (by omega)⟩

theorem aluInstruction_exists_next (op : AluOp) (a b : Byte) : ∃ t, aluInstruction op a b s = .next t :=
  withOperands_exists_next s <| withReg_exists_next s fun _ => withReg_exists_next s fun _ => advance_exists_next _ 2

theorem branchInstruction_exists_next (taken : Bool) (r : Byte) : ∃ t, branchInstruction taken r s = .next t := by
  refine withOperands_exists_next s <| withReg_exists_next s fun i => ?_
  cases taken with
  | true => exact transfer_exists_next s (s.reg i)
  | false => exact advance_exists_next s 1

/-- No instruction is stuck or refused, in any state. -/
theorem execute_exists_next (i : Instr) : ∃ t, execute i s = .next t := by
  cases i with
  | hlt => exact ⟨_, rfl⟩
  | ldi r imm => exact withOperands_exists_next s <| withReg_exists_next s fun _ => advance_exists_next _ 2
  | prn r => exact withOperands_exists_next s <| withReg_exists_next s fun _ => advance_exists_next _ 1
  | add a b => exact aluInstruction_exists_next s .add a b
  | mul a b => exact aluInstruction_exists_next s .mul a b
  | cmp a b => exact aluInstruction_exists_next s .cmp a b
  | jmp r => exact branchInstruction_exists_next s true r
  | jeq r => exact branchInstruction_exists_next s s.fl.e r
  | jne r => exact branchInstruction_exists_next s (!s.fl.e) r

/-- A step exists exactly on a RUNNING machine (R90). -/
theorem stepAt_exists_next_iff : (∃ t, stepAt s = .next t) ↔ s.status = .running := by
  constructor
  · rintro ⟨t, ht⟩
    exact stepAt_next_running s ht
  · intro hs
    cases hd : decode (fetchBytes s) with
    | ok i rest =>
      rw [stepAt_of_ok s hs hd]
      exact execute_exists_next s i
    | unsupported op => exact ⟨_, stepAt_of_unsupported s hs hd⟩
    | truncated => exact ⟨_, stepAt_of_truncated s hs hd⟩

/-- A step of this hardware exists exactly on a RUNNING machine (R90). -/
theorem step_exists_next_iff {s : State} : (∃ t, step s = .next t) ↔ s.status = .running := by
  rw [step_eq_stepAt]
  exact stepAt_exists_next_iff s

end Sys2Proof.Machine
end

section
/-! How a run ends (00_scope.md R14): a run that has stopped cannot be continued, so all runs from one state that stop
stop in the same state. -/

namespace Sys2Proof

open Sys2Proof.Machine

/-- No run from the same state is longer than one that has stopped. -/
theorem runsTo_length_le_of_stopped {j k : Nat} {s t u : State} (ht : RunsTo k s t) (hstop : t.status ≠ .running)
    (hu : RunsTo j s u) : j ≤ k := by
  induction k generalizing j s with
  | zero =>
    cases ht
    cases j with
    | zero => exact Nat.le_refl 0
    | succ j =>
      obtain ⟨v, hv, -⟩ := hu
      exact absurd (step_next_running hv) hstop
  | succ k ih =>
    cases j with
    | zero => exact Nat.zero_le _
    | succ j =>
      obtain ⟨v, hv, htv⟩ := ht
      obtain ⟨w, hw, huw⟩ := hu
      cases hv.symm.trans hw
      exact Nat.succ_le_succ (ih htv huw)

/-- The state a run stops in is unique, whatever the numbers of steps. -/
theorem runsTo_stopped_unique {j k : Nat} {s t u : State} (ht : RunsTo k s t) (htstop : t.status ≠ .running)
    (hu : RunsTo j s u) (hustop : u.status ≠ .running) : t = u := by
  have hjk : j = k :=
    Nat.le_antisymm (runsTo_length_le_of_stopped ht htstop hu) (runsTo_length_le_of_stopped hu hustop ht)
  subst hjk
  exact runsTo_unique ht hu

/-- A run that stops does not run forever: after as many steps it would be RUNNING as well. -/
theorem not_runsForever_of_stopped {k : Nat} {s t : State} (ht : RunsTo k s t) (hstop : t.status ≠ .running) :
    ¬ RunsForever s := by
  intro hforever
  obtain ⟨u, hu, hrun⟩ := hforever k
  exact hstop (runsTo_unique ht hu ▸ hrun)

/-- A run that never stops runs forever, since every RUNNING state has a step (R90). -/
theorem runsForever_of_never_stopped {s : State}
    (hnever : ∀ k t, RunsTo k s t → t.status = .running) : RunsForever s := by
  intro k
  induction k with
  | zero => exact ⟨s, rfl, hnever 0 s rfl⟩
  | succ k ih =>
    obtain ⟨u, hu, hrun⟩ := ih
    obtain ⟨t, ht⟩ := step_exists_next_iff.2 hrun
    have hst : RunsTo (k + 1) s t := runsTo_succ_last.2 ⟨u, hu, ht⟩
    exact ⟨t, hst, hnever _ _ hst⟩

/-- There is no fourth way for a run to go (R14); a state that is not RUNNING has ended already, after 0 steps. -/
theorem halts_or_faults_or_runsForever (s : State) :
    Halts s ∨ (∃ c info, FaultsWith s c info) ∨ RunsForever s := by
  by_cases hnever : ∀ k t, RunsTo k s t → t.status = .running
  · exact .inr (.inr (runsForever_of_never_stopped hnever))
  · push Not at hnever
    obtain ⟨k, t, ht, hstop⟩ := hnever
    cases hst : t.status with
    | running => exact absurd hst hstop
    | halted => exact .inl ⟨k, t, ht, hst⟩
    | faulted c info => exact .inr (.inl ⟨c, info, k, t, ht, hst⟩)

theorem Halts.not_runsForever {s : State} (h : Halts s) : ¬ RunsForever s := by
  obtain ⟨k, t, ht, hst⟩ := h
  exact not_runsForever_of_stopped ht (by simp [hst])

theorem FaultsWith.not_runsForever {s : State} {c : Cause} {info : Nat} (h : FaultsWith s c info) :
    ¬ RunsForever s := by
  obtain ⟨k, t, ht, hst⟩ := h
  exact not_runsForever_of_stopped ht (by simp [hst])

theorem FaultsWith.not_halts {s : State} {c : Cause} {info : Nat} (h : FaultsWith s c info) : ¬ Halts s := by
  rintro ⟨j, u, hu, hus⟩
  obtain ⟨k, t, ht, hts⟩ := h
  cases runsTo_stopped_unique ht (by simp [hts]) hu (by simp [hus])
  simp [hts] at hus

/-- A run faults with one cause and one information value. -/
theorem FaultsWith.unique {s : State} {c c' : Cause} {info info' : Nat} (h : FaultsWith s c info)
    (h' : FaultsWith s c' info') : c' = c ∧ info' = info := by
  obtain ⟨k, t, ht, hts⟩ := h
  obtain ⟨j, u, hu, hus⟩ := h'
  cases runsTo_stopped_unique ht (by simp [hts]) hu (by simp [hus])
  exact Status.faulted.inj (hus.symm.trans hts)

/-- Settles O48: a run that never stops runs forever because the step is total on RUNNING states, and the state a run
stops in is unique. -/
theorem everyRunEndsInExactlyOneWay : Obligations.EveryRunEndsInExactlyOneWay := by
  intro s _
  exact ⟨halts_or_faults_or_runsForever s,
    fun _ _ h => ⟨h.not_halts, h.not_runsForever, fun _ _ h' => h.unique h'⟩,
    Halts.not_runsForever⟩

end Sys2Proof
end

section
/-! Reset (10_state.md R36, 70_reset_and_hazards.md R170 to R173). -/

namespace Sys2Proof.Machine

variable {xlen : Xlen}

/-- The registers of a machine just constructed are 0 (10_state.md R36). -/
@[simp] theorem State.construct_reg (i : RegIndex) : (State.construct xlen).reg i = 0 := by
  simp [State.construct, State.reg]

/-- Reset with an image that fits the store: the construction state with the image in its store (R172, R173). -/
theorem hostReset_of_le {image : List Byte} (s : State xlen) (h : image.length ≤ 256) :
    hostReset image s = .next { State.construct xlen with imem := Memory.ofBytesAt 0 image } := by
  simp [hostReset, boot, h]

/-- Settles O5: reset is the construction state, whose store reads as the image that was loaded at address 0. -/
theorem resetGivesTheConstructionState : Obligations.ResetGivesTheConstructionState := by
  intro xlen image s himage
  refine ⟨_, hostReset_of_le s himage, State.construct_reg, rfl, rfl, rfl, rfl, rfl, rfl, fun a _ => ?_⟩
  simp [Memory.read_ofBytesAt]

end Sys2Proof.Machine
end

section
/-! What the decoder answers to the bytes it is given (30_encoding.md R60 to R69). -/

namespace Sys2Proof

open Sys2Proof.Machine

/-- The nine bytes of `supportedBytes` are the opcode bytes of the nine operations (R67). -/
theorem mem_supportedBytes_iff {b : Byte} : b ∈ supportedBytes ↔ ∃ o : Opcode, b = o.byte := by
  constructor
  · intro h
    simp only [supportedBytes, List.mem_cons, List.not_mem_nil, or_false] at h
    rcases h with rfl | rfl | rfl | rfl | rfl | rfl | rfl | rfl | rfl
    exacts [⟨.hlt, rfl⟩, ⟨.ldi, rfl⟩, ⟨.prn, rfl⟩, ⟨.add, rfl⟩, ⟨.mul, rfl⟩, ⟨.cmp, rfl⟩, ⟨.jmp, rfl⟩, ⟨.jeq, rfl⟩,
      ⟨.jne, rfl⟩]
  · rintro ⟨o, rfl⟩
    cases o <;> decide

/-- The decoder reads an instruction back from its encoding, whatever follows (R60). -/
@[simp] theorem decode_encode_append (i : Instr) (rest : List Byte) : decode (encode i ++ rest) = .ok i rest := by
  cases i <;> simp [decode, encode, Instr.opcode, Instr.operandBytes]

/-- A byte that is none of the nine is refused whatever follows (R68, R69). -/
theorem decode_of_not_supported {op : Byte} (h : op ∉ supportedBytes) (operands : List Byte) :
    decode (op :: operands) = .unsupported op := by
  have hnone : Opcode.ofByte? op = none := Opcode.ofByte?_eq_none.2 fun o ho => h (mem_supportedBytes_iff.2 ⟨o, ho⟩)
  simp [decode, hnone]

open Laws.OperandCountMatches in
/-- The operand count in the opcode byte is the number of operand bytes that follow it (R61). -/
theorem operandCount_opcode_byte : ∀ i : Instr, operandCount i.opcode.byte = i.operandBytes.length
  | .hlt => hlt
  | .ldi r imm => ldi r imm
  | .prn r => prn r
  | .add a b => add a b
  | .mul a b => mul a b
  | .cmp a b => cmp a b
  | .jmp r => jmp r
  | .jeq r => jeq r
  | .jne r => jne r

/-- A supported opcode without all its operand bytes is truncated (R83). -/
theorem decode_of_missing_operands : ∀ {o : Opcode} {operands : List Byte}, operands.length < operandCount o.byte →
    decode (o.byte :: operands) = .truncated
  | .prn, [], _ | .jmp, [], _ | .jeq, [], _ | .jne, [], _ => rfl
  | .ldi, [], _ | .add, [], _ | .mul, [], _ | .cmp, [], _ => rfl
  | .ldi, [_], _ | .add, [_], _ | .mul, [_], _ | .cmp, [_], _ => rfl

/-- A supported opcode with all its operand bytes begins an encoding (R62). -/
theorem exists_eq_encode_append : ∀ {o : Opcode} {operands : List Byte}, operandCount o.byte ≤ operands.length →
    ∃ i rest, o.byte :: operands = encode i ++ rest
  | .hlt, rest, _ => ⟨.hlt, rest, rfl⟩
  | .ldi, r :: imm :: rest, _ => ⟨.ldi r imm, rest, rfl⟩
  | .prn, r :: rest, _ => ⟨.prn r, rest, rfl⟩
  | .add, a :: b :: rest, _ => ⟨.add a b, rest, rfl⟩
  | .mul, a :: b :: rest, _ => ⟨.mul a b, rest, rfl⟩
  | .cmp, a :: b :: rest, _ => ⟨.cmp a b, rest, rfl⟩
  | .jmp, r :: rest, _ => ⟨.jmp r, rest, rfl⟩
  | .jeq, r :: rest, _ => ⟨.jeq r, rest, rfl⟩
  | .jne, r :: rest, _ => ⟨.jne r, rest, rfl⟩

end Sys2Proof
end

section
/-! What a step finds at the pc (40_cycle.md R81 to R84), and so everything a step can do. -/

namespace Sys2Proof.Machine

variable {xlen : Xlen} (s : State xlen)

/-- The cells from the pc on that exist, of the three an instruction can need. -/
theorem fetchBytes_eq_take : fetchBytes s = opcodeAt s :: [operand1At s, operand2At s].take (255 - s.pc.toNat) := by
  have hlt := s.pc_lt
  rcases (by omega : s.pc.toNat ≤ 253 ∨ s.pc.toNat = 254 ∨ s.pc.toNat = 255) with h | h | h
  · obtain ⟨k, hk⟩ : ∃ k, 255 - s.pc.toNat = k + 2 := ⟨253 - s.pc.toNat, by omega⟩
    simp [fetchBytes_three s h, hk]
  · simp [fetchBytes_two s h, h]
  · simp [fetchBytes_one s h, h]

/-- The bytes at the pc are the encoding of `i`, all of them inside the store. -/
def EncodedAtPc (i : Instr) : Prop :=
  encode i <+: [opcodeAt s, operand1At s, operand2At s] ∧ s.pc.toNat + countAt s ≤ 255

variable {s}

theorem EncodedAtPc.opcodeAt_eq {i : Instr} (h : EncodedAtPc s i) : opcodeAt s = i.opcode.byte :=
  (List.cons_prefix_cons.1 h.1).1.symm

theorem EncodedAtPc.opcodeAt_eq_hlt_iff {i : Instr} (h : EncodedAtPc s i) : opcodeAt s = 0x01#8 ↔ i = .hlt := by
  rw [h.opcodeAt_eq]
  cases i <;> simp [Instr.opcode, Opcode.byte]

theorem EncodedAtPc.countAt_eq {i : Instr} (h : EncodedAtPc s i) : countAt s = i.operandBytes.length := by
  rw [← operandCount_opcode_byte, ← h.opcodeAt_eq]
  rfl

theorem EncodedAtPc.operandBytes_prefix {i : Instr} (h : EncodedAtPc s i) :
    i.operandBytes <+: [operand1At s, operand2At s] :=
  (List.cons_prefix_cons.1 h.1).2

theorem EncodedAtPc.one_operand {i : Instr} (h : EncodedAtPc s i) {r : Byte} (hr : i.operandBytes = [r]) :
    r = operand1At s := by
  simpa [hr] using h.operandBytes_prefix

theorem EncodedAtPc.two_operands {i : Instr} (h : EncodedAtPc s i) {a b : Byte} (hab : i.operandBytes = [a, b]) :
    a = operand1At s ∧ b = operand2At s := by
  simpa [hab] using h.operandBytes_prefix

theorem stepAt_of_not_supported (hs : s.status = .running) (hop : opcodeAt s ∉ supportedBytes) :
    stepAt s = raise .unsupportedOperation (opcodeAt s).toNat s :=
  stepAt_of_unsupported s hs (by rw [fetchBytes_eq_take, decode_of_not_supported hop])

theorem stepAt_of_operands_past (hs : s.status = .running) (hop : opcodeAt s ∈ supportedBytes)
    (hpast : 255 < s.pc.toNat + countAt s) : stepAt s = raise .operandFetchOutOfRange s.pc.toNat s := by
  obtain ⟨o, ho⟩ := mem_supportedBytes_iff.1 hop
  have hcount : countAt s = operandCount o.byte := congrArg operandCount ho
  refine stepAt_of_truncated s hs ?_
  rw [fetchBytes_eq_take, ho]
  exact decode_of_missing_operands (by simp; omega)

theorem stepAt_of_operands_fit (hs : s.status = .running) (hop : opcodeAt s ∈ supportedBytes)
    (hfit : s.pc.toNat + countAt s ≤ 255) : ∃ i, EncodedAtPc s i ∧ stepAt s = execute i s := by
  obtain ⟨o, ho⟩ := mem_supportedBytes_iff.1 hop
  have hcount : countAt s = operandCount o.byte := congrArg operandCount ho
  have hle : operandCount o.byte ≤ 2 := by cases o <;> decide
  obtain ⟨i, rest, hi⟩ := exists_eq_encode_append (o := o)
    (operands := [operand1At s, operand2At s].take (255 - s.pc.toNat)) (by simp; omega)
  rw [← ho] at hi
  refine ⟨i, ⟨?_, hfit⟩, stepAt_of_ok s hs (rest := rest) (by rw [fetchBytes_eq_take, hi, decode_encode_append])⟩
  calc encode i
      <+: encode i ++ rest := List.prefix_append _ _
    _ = opcodeAt s :: [operand1At s, operand2At s].take (255 - s.pc.toNat) := hi.symm
    _ <+: [opcodeAt s, operand1At s, operand2At s] := (List.prefix_cons_inj _).2 (List.take_prefix _ _)

/-- Everything a step can do: refuse the opcode, miss its operand bytes, or execute the instruction at the pc. -/
theorem stepAt_next_cases {t : State xlen} (h : stepAt s = .next t) :
    (opcodeAt s ∉ supportedBytes ∧ t = s.setStatus (.faulted .unsupportedOperation (opcodeAt s).toNat)) ∨
      (opcodeAt s ∈ supportedBytes ∧ 255 < s.pc.toNat + countAt s ∧
        t = s.setStatus (.faulted .operandFetchOutOfRange s.pc.toNat)) ∨
      ∃ i, EncodedAtPc s i ∧ execute i s = .next t := by
  have hs := stepAt_next_running s h
  by_cases hop : opcodeAt s ∈ supportedBytes
  · by_cases hfit : s.pc.toNat + countAt s ≤ 255
    · obtain ⟨i, hi, hstep⟩ := stepAt_of_operands_fit hs hop hfit
      exact .inr (.inr ⟨i, hi, hstep.symm.trans h⟩)
    · rw [stepAt_of_operands_past hs hop (by omega), raise_eq_next] at h
      exact .inr (.inl ⟨hop, by omega, (Host.Outcome.next.inj h).symm⟩)
  · rw [stepAt_of_not_supported hs hop, raise_eq_next] at h
    exact .inl ⟨hop, (Host.Outcome.next.inj h).symm⟩

end Sys2Proof.Machine
end

section
/-! The status a step leaves (10_state.md R30): HALTED after HLT and after nothing else, FAULTED only with a cause
and value the old state accounts for (60_exceptions.md R141). -/

namespace Sys2Proof.Machine

variable {xlen : Xlen} {s t : State xlen}

/-- `t` is RUNNING, or FAULTED with a cause and value that `s` accounts for. -/
def RunsOrFaults (s t : State xlen) : Prop :=
  t.status = .running ∨ ∃ c info, t.status = .faulted c info ∧ FaultExplained s c info

theorem RunsOrFaults.not_halted (h : RunsOrFaults s t) : t.status ≠ .halted := by
  rcases h with h | ⟨c, info, h, -⟩ <;> simp [h]

theorem runsOrFaults_setStatus {c : Cause} {info : Nat} (u : State xlen) (h : FaultExplained s c info) :
    RunsOrFaults s (u.setStatus (.faulted c info)) :=
  .inr ⟨c, info, rfl, h⟩

/-- What holds of a state that executes an instruction other than HLT. -/
structure ExecutesNonHlt (s : State xlen) : Prop where
  running : s.status = .running
  supported : opcodeAt s ∈ supportedBytes
  ne_hlt : opcodeAt s ≠ 0x01#8
  fits : s.pc.toNat + countAt s ≤ 255

/-! ### The shared operations -/

/-- The check of operand 1. -/
theorem runsOrFaults_of_withReg_operand1 (hs : ExecutesNonHlt s) {k : RegIndex → Result xlen}
    (hk : ∀ i : RegIndex, i.val = (operand1At s).toNat → k i = .next t → RunsOrFaults s t)
    (h : withReg (operand1At s) s k = .next t) : RunsOrFaults s t := by
  rcases withReg_next s h with ⟨i, hi, h⟩ | ⟨hgt, rfl⟩
  · exact hk i hi h
  · exact runsOrFaults_setStatus s ⟨hs.supported, hs.ne_hlt, hs.fits, hgt, .inl rfl⟩

/-- The check of operand 2, after operand 1 was found good. -/
theorem runsOrFaults_of_withReg_operand2 (hs : ExecutesNonHlt s) (halu : aluAt s) (h1 : (operand1At s).toNat ≤ 7)
    {k : RegIndex → Result xlen} (hk : ∀ i : RegIndex, i.val = (operand2At s).toNat → k i = .next t → RunsOrFaults s t)
    (h : withReg (operand2At s) s k = .next t) : RunsOrFaults s t := by
  rcases withReg_next s h with ⟨i, hi, h⟩ | ⟨hgt, rfl⟩
  · exact hk i hi h
  · exact runsOrFaults_setStatus s ⟨hs.supported, hs.ne_hlt, hs.fits, hgt, .inr ⟨halu, h1, rfl⟩⟩

/-- The default advance, from the state `u` that the instruction's effect leaves. -/
theorem runsOrFaults_of_advance (hs : ExecutesNonHlt s) (htaken : takenAt s = false) {u : State xlen}
    (hpc : u.pc = s.pc) (hst : u.status = s.status) (h : advance (countAt s) u = .next t) : RunsOrFaults s t := by
  have hfits := hs.fits
  rcases advance_next u h with ⟨-, rfl⟩ | ⟨hgt, rfl⟩
  · exact .inl (hst.trans hs.running)
  · rw [hpc] at hgt ⊢
    have hlast : s.pc.toNat + countAt s = 255 := by omega
    refine runsOrFaults_setStatus u ⟨hs.supported, hs.ne_hlt, hs.fits, ?_⟩
    rw [if_neg (by simp [htaken])]
    exact ⟨hlast, by omega⟩

/-- A register named by an operand byte. -/
theorem regNamed_eq_reg {o : Byte} {i : RegIndex} (h : i.val = o.toNat) : regNamed s o = s.reg i := by
  have hi : i.val < s.x.toList.length := by simp
  rw [regNamed, ← h, List.getD_eq_getElem _ _ hi]
  simp [State.reg]

/-- The taken transfer. -/
theorem runsOrFaults_of_transfer (hs : ExecutesNonHlt s) (htaken : takenAt s = true) {i : RegIndex}
    (hi : i.val = (operand1At s).toNat) (h : transfer (s.reg i) s = .next t) : RunsOrFaults s t := by
  rcases transfer_next s h with ⟨-, rfl⟩ | ⟨hgt, rfl⟩
  · exact .inl hs.running
  · refine runsOrFaults_setStatus s ⟨hs.supported, hs.ne_hlt, hs.fits, ?_⟩
    rw [if_pos htaken, regNamed_eq_reg hi]
    exact ⟨hgt, rfl⟩

/-! ### The instructions -/

/-- ADD, MUL and CMP have two operands and transfer no control. -/
theorem countAt_takenAt_of_aluAt (h : aluAt s) : countAt s = 2 ∧ takenAt s = false := by
  simp only [aluAt, Bool.or_eq_true, beq_iff_eq] at h
  rcases h with (h | h) | h <;> simp [countAt, takenAt, h]

theorem runsOrFaults_of_aluInstruction (hs : ExecutesNonHlt s) (halu : aluAt s) {op : AluOp}
    (h : aluInstruction op (operand1At s) (operand2At s) s = .next t) : RunsOrFaults s t := by
  obtain ⟨hcount, htaken⟩ := countAt_takenAt_of_aluAt halu
  rw [aluInstruction, withOperands_fits s _ (hcount ▸ hs.fits)] at h
  refine runsOrFaults_of_withReg_operand1 hs (fun i hi h => ?_) h
  refine runsOrFaults_of_withReg_operand2 hs halu (by omega) (fun j _ h => ?_) h
  exact runsOrFaults_of_advance hs htaken (aluExecute_pc s op i j) (aluExecute_status s op i j) (hcount ▸ h)

theorem runsOrFaults_of_branchInstruction (hs : ExecutesNonHlt s) (hcount : countAt s = 1)
    (h : branchInstruction (takenAt s) (operand1At s) s = .next t) : RunsOrFaults s t := by
  rw [branchInstruction, withOperands_fits s _ (hcount ▸ hs.fits)] at h
  refine runsOrFaults_of_withReg_operand1 hs (fun i hi h => ?_) h
  cases htaken : takenAt s with
  | true => exact runsOrFaults_of_transfer hs htaken hi (by simpa [htaken] using h)
  | false => exact runsOrFaults_of_advance hs htaken rfl rfl (by simpa [htaken, hcount] using h)

theorem runsOrFaults_of_execLdi (hs : ExecutesNonHlt s) (hop : opcodeAt s = 0x82#8)
    (h : execLdi (operand1At s) (operand2At s) s = .next t) : RunsOrFaults s t := by
  have hcount : countAt s = 2 := by simp [countAt, hop]
  rw [execLdi, withOperands_fits s _ (hcount ▸ hs.fits)] at h
  refine runsOrFaults_of_withReg_operand1 hs (fun i _ h => ?_) h
  exact runsOrFaults_of_advance hs (by simp [takenAt, hop]) (u := s.setReg i _) rfl rfl (hcount ▸ h)

theorem runsOrFaults_of_execPrn (hs : ExecutesNonHlt s) (hop : opcodeAt s = 0x47#8)
    (h : execPrn (operand1At s) s = .next t) : RunsOrFaults s t := by
  have hcount : countAt s = 1 := by simp [countAt, hop]
  rw [execPrn, withOperands_fits s _ (hcount ▸ hs.fits)] at h
  refine runsOrFaults_of_withReg_operand1 hs (fun i _ h => ?_) h
  exact runsOrFaults_of_advance hs (by simp [takenAt, hop]) (u := s.emit _) rfl rfl (hcount ▸ h)

/-- HLT halts, and no other instruction does. -/
theorem execute_status (hrun : s.status = .running) {i : Instr} (hi : EncodedAtPc s i) (h : execute i s = .next t) :
    (i = .hlt ∧ t.status = .halted) ∨ (i ≠ .hlt ∧ RunsOrFaults s t) := by
  by_cases hhlt : i = .hlt
  · subst hhlt
    cases h
    exact .inl ⟨rfl, rfl⟩
  refine .inr ⟨hhlt, ?_⟩
  have hop := hi.opcodeAt_eq
  have hs : ExecutesNonHlt s :=
    ⟨hrun, mem_supportedBytes_iff.2 ⟨_, hop⟩, fun h => hhlt (hi.opcodeAt_eq_hlt_iff.1 h), hi.2⟩
  cases i with
  | hlt => exact absurd rfl hhlt
  | ldi r imm =>
    obtain ⟨rfl, rfl⟩ := hi.two_operands rfl
    exact runsOrFaults_of_execLdi hs hop h
  | prn r =>
    obtain rfl := hi.one_operand rfl
    exact runsOrFaults_of_execPrn hs hop h
  | add a b =>
    obtain ⟨rfl, rfl⟩ := hi.two_operands rfl
    exact runsOrFaults_of_aluInstruction hs (by simp [aluAt, hop, Instr.opcode, Opcode.byte]) h
  | mul a b =>
    obtain ⟨rfl, rfl⟩ := hi.two_operands rfl
    exact runsOrFaults_of_aluInstruction hs (by simp [aluAt, hop, Instr.opcode, Opcode.byte]) h
  | cmp a b =>
    obtain ⟨rfl, rfl⟩ := hi.two_operands rfl
    exact runsOrFaults_of_aluInstruction hs (by simp [aluAt, hop, Instr.opcode, Opcode.byte]) h
  | jmp r =>
    obtain rfl := hi.one_operand rfl
    have htaken : takenAt s = true := by simp [takenAt, hop, Instr.opcode, Opcode.byte]
    exact runsOrFaults_of_branchInstruction hs hi.countAt_eq (htaken ▸ h)
  | jeq r =>
    obtain rfl := hi.one_operand rfl
    have htaken : takenAt s = s.fl.e := by simp [takenAt, hop, Instr.opcode, Opcode.byte]
    exact runsOrFaults_of_branchInstruction hs hi.countAt_eq (htaken ▸ h)
  | jne r =>
    obtain rfl := hi.one_operand rfl
    have htaken : takenAt s = !s.fl.e := by simp [takenAt, hop, Instr.opcode, Opcode.byte]
    exact runsOrFaults_of_branchInstruction hs hi.countAt_eq (htaken ▸ h)

/-- The status a step leaves: HALTED when it executed an HLT, else RUNNING or a fault the old state accounts for. -/
theorem stepAt_status (h : stepAt s = .next t) :
    (opcodeAt s = 0x01#8 ∧ t.status = .halted) ∨ (opcodeAt s ≠ 0x01#8 ∧ RunsOrFaults s t) := by
  rcases stepAt_next_cases h with ⟨hop, rfl⟩ | ⟨hop, hpast, rfl⟩ | ⟨i, hi, hexec⟩
  · refine .inr ⟨fun hhlt => hop (by simp [hhlt, supportedBytes]), runsOrFaults_setStatus s ⟨hop, rfl⟩⟩
  · refine .inr ⟨fun hhlt => ?_, runsOrFaults_setStatus s ⟨hop, hpast, rfl⟩⟩
    have hcount : countAt s = 0 := by simp [countAt, hhlt]
    have hlt := s.pc_lt
    omega
  · rw [Ne, hi.opcodeAt_eq_hlt_iff]
    exact execute_status (stepAt_next_running s h) hi hexec

/-- Settles O20: the status a step leaves, by what the step found at the pc; a state that is not RUNNING has no step. -/
theorem statusTransitions : Obligations.StatusTransitions := by
  refine ⟨rfl, fun s t h => ⟨step_next_running h, ?_⟩, fun s t hs h => hs (step_next_running h)⟩
  rw [step_eq_stepAt] at h
  rcases stepAt_status h with ⟨hop, hst⟩ | ⟨hop, hst⟩
  · exact ⟨iff_of_true hst hop, .inr (.inl hst)⟩
  · exact ⟨iff_of_false hst.not_halted hop, hst.imp_right .inr⟩

end Sys2Proof.Machine
end

section
/-! The Instruction Store is read-only to the machine (20_memory.md R44): no shared operation, so no instruction, no
step and no run writes a cell. -/

namespace Sys2Proof.Machine

variable {xlen : Xlen} {s t : State xlen}

theorem withOperands_imem {n : Nat} {k : Result xlen} (hk : k = .next t → t.imem = s.imem)
    (h : withOperands n s k = .next t) : t.imem = s.imem := by
  rcases withOperands_next s h with ⟨-, h⟩ | ⟨-, rfl⟩
  · exact hk h
  · rfl

theorem withReg_imem {o : Byte} {k : RegIndex → Result xlen} (hk : ∀ i, k i = .next t → t.imem = s.imem)
    (h : withReg o s k = .next t) : t.imem = s.imem := by
  rcases withReg_next s h with ⟨i, -, h⟩ | ⟨-, rfl⟩
  · exact hk i h
  · rfl

theorem advance_imem {n : Nat} (h : advance n s = .next t) : t.imem = s.imem := by
  rcases advance_next s h with ⟨-, rfl⟩ | ⟨-, rfl⟩
  · rfl
  · rfl

theorem aluInstruction_imem {op : AluOp} {a b : Byte} (h : aluInstruction op a b s = .next t) : t.imem = s.imem := by
  rcases aluInstruction_next s h with ⟨i, j, -, -, -, h⟩ | ⟨_, _, -, rfl⟩
  · exact (advance_imem h).trans (aluExecute_imem s op i j)
  · rfl

theorem branchInstruction_imem {taken : Bool} {r : Byte} (h : branchInstruction taken r s = .next t) :
    t.imem = s.imem := by
  rcases branchInstruction_next s h with ⟨_, -, -, -, rfl⟩ | ⟨-, -, rfl⟩ | ⟨_, _, rfl⟩
  · rfl
  · rfl
  · rfl

/-- No instruction writes the store: LDI writes a register and PRN the output before they advance, and HLT, the ALU
and the control transfers do not touch it either. -/
theorem execute_imem {i : Instr} (h : execute i s = .next t) : t.imem = s.imem := by
  cases i with
  | hlt =>
    cases h
    rfl
  | ldi r imm => exact withOperands_imem (withReg_imem fun i h => advance_imem (s := s.setReg i (immediate imm)) h) h
  | prn r => exact withOperands_imem (withReg_imem fun i h => advance_imem (s := s.emit (s.reg i)) h) h
  | add a b => exact aluInstruction_imem (op := .add) h
  | mul a b => exact aluInstruction_imem (op := .mul) h
  | cmp a b => exact aluInstruction_imem (op := .cmp) h
  | jmp r => exact branchInstruction_imem (taken := true) h
  | jeq r => exact branchInstruction_imem (taken := s.fl.e) h
  | jne r => exact branchInstruction_imem (taken := !s.fl.e) h

/-- A step keeps the store, whether it executes an instruction or raises a fault. -/
theorem stepAt_imem (h : stepAt s = .next t) : t.imem = s.imem := by
  rcases stepAt_next_cases h with ⟨-, rfl⟩ | ⟨-, -, rfl⟩ | ⟨i, -, hexec⟩
  · rfl
  · rfl
  · exact execute_imem hexec

theorem step_imem {s t : State} (h : step s = .next t) : t.imem = s.imem :=
  stepAt_imem (step_eq_stepAt s ▸ h)

/-- A run keeps the store. -/
theorem runsTo_imem : ∀ (k : Nat) (s t : State), RunsTo k s t → t.imem = s.imem :=
  runsTo_induction (P := fun s t => t.imem = s.imem) (fun _ => rfl) fun _ _ _ hstep ih => ih.trans (step_imem hstep)

/-- Settles O41: a step keeps the store, so a run does, and equal stores read the same at every address. -/
theorem instructionStoreIsConstant : Obligations.InstructionStoreIsConstant := by
  intro k s t h
  have himem : t.imem = s.imem := runsTo_imem k s t h
  exact ⟨himem, fun a => congrArg (Memory.read · a) himem⟩

end Sys2Proof.Machine
end

section
/-! The pseudocode of 40_cycle.md R80, case by case. -/

namespace Sys2Proof.Rule80

open Sys2Proof.Machine

variable {xlen : Xlen} {s : State xlen}

@[simp] theorem effect_pc : (effect s).pc = s.pc := by
  simp only [effect]
  split_ifs <;> rfl

@[simp] theorem effect_status : (effect s).status = s.status := by
  simp only [effect]
  split_ifs <;> rfl

/-- Every instruction but HLT has an operand (30_encoding.md R67). -/
theorem one_le_countAt (hs : ExecutesNonHlt s) : 1 ≤ countAt s := by
  obtain ⟨o, ho⟩ := mem_supportedBytes_iff.1 hs.supported
  have hne := hs.ne_hlt
  rw [countAt, ho]
  rw [ho] at hne
  cases o with
  | hlt => exact absurd rfl hne
  | _ => decide

theorem step_of_not_supported (hop : opcodeAt s ∉ supportedBytes) :
    step s = s.setStatus (.faulted .unsupportedOperation (opcodeAt s).toNat) :=
  if_pos hop

theorem step_of_operands_past (hop : opcodeAt s ∈ supportedBytes) (hpast : 255 < s.pc.toNat + countAt s) :
    step s = s.setStatus (.faulted .operandFetchOutOfRange s.pc.toNat) :=
  (if_neg (not_not.2 hop)).trans (if_pos hpast)

variable (s) in
/-- Items 6 and 7 of the pseudocode, HLT apart: the effect and the next pc. -/
def effectAndNextPc : State xlen :=
  if takenAt s then
    if 255 < (regNamed s (operand1At s)).toNat then
      s.setStatus (.faulted .pcOutOfRange (regNamed s (operand1At s)).toNat)
    else s.setPc (BitVec.ofNat 8 (regNamed s (operand1At s)).toNat)
  else if 255 < s.pc.toNat + 1 + countAt s then
    (effect s).setStatus (.faulted .pcOutOfRange (s.pc.toNat + 1 + countAt s))
  else (effect s).setPc (BitVec.ofNat 8 (s.pc.toNat + 1 + countAt s))

/-- A state at an instruction other than HLT passes items 1 to 4 and goes on with the index checks of item 5. -/
theorem step_of_executes (hs : ExecutesNonHlt s) :
    step s =
      if 7 < (operand1At s).toNat then s.setStatus (.faulted .registerIndexOutOfRange (operand1At s).toNat)
      else if aluAt s ∧ 7 < (operand2At s).toNat then
        s.setStatus (.faulted .registerIndexOutOfRange (operand2At s).toNat)
      else effectAndNextPc s := by
  have hfits : ¬ s.pc.toNat + countAt s > 255 := Nat.not_lt.2 hs.fits
  simp only [step, hs.supported, not_true_eq_false, if_false, hfits, one_le_countAt hs, true_and, gt_iff_lt,
    hs.ne_hlt]
  rfl

theorem step_of_operand1_gt (hs : ExecutesNonHlt s) (h1 : 7 < (operand1At s).toNat) :
    step s = s.setStatus (.faulted .registerIndexOutOfRange (operand1At s).toNat) := by
  rw [step_of_executes hs, if_pos h1]

theorem step_of_operand2_gt (hs : ExecutesNonHlt s) (halu : aluAt s) (h1 : (operand1At s).toNat ≤ 7)
    (h2 : 7 < (operand2At s).toNat) :
    step s = s.setStatus (.faulted .registerIndexOutOfRange (operand2At s).toNat) := by
  rw [step_of_executes hs, if_neg (by omega), if_pos ⟨halu, h2⟩]

theorem step_of_operandsValid (hs : ExecutesNonHlt s) (hv : operandsValid s) : step s = effectAndNextPc s := by
  obtain ⟨-, h1, h2⟩ := hv
  rw [step_of_executes hs, if_neg (Nat.not_lt.2 (h1 (one_le_countAt hs))),
    if_neg fun ⟨halu, hgt⟩ => absurd (h2 halu) (Nat.not_le.2 hgt)]

section

variable (hs : ExecutesNonHlt s) (hv : operandsValid s)
include hs hv

theorem step_of_taken_fits (htaken : takenAt s = true) (ht : (regNamed s (operand1At s)).toNat ≤ 255) :
    step s = s.setPc (BitVec.ofNat 8 (regNamed s (operand1At s)).toNat) := by
  rw [step_of_operandsValid hs hv, effectAndNextPc, if_pos htaken, if_neg (Nat.not_lt.2 ht)]

theorem step_of_taken_past (htaken : takenAt s = true) (ht : 255 < (regNamed s (operand1At s)).toNat) :
    step s = s.setStatus (.faulted .pcOutOfRange (regNamed s (operand1At s)).toNat) := by
  rw [step_of_operandsValid hs hv, effectAndNextPc, if_pos htaken, if_pos ht]

theorem step_of_advance_fits (htaken : ¬ takenAt s) (hn : s.pc.toNat + 1 + countAt s ≤ 255) :
    step s = (effect s).setPc (BitVec.ofNat 8 (s.pc.toNat + 1 + countAt s)) := by
  rw [step_of_operandsValid hs hv, effectAndNextPc, if_neg htaken, if_neg (Nat.not_lt.2 hn)]

theorem step_of_advance_past (htaken : ¬ takenAt s) (hn : 255 < s.pc.toNat + 1 + countAt s) :
    step s = (effect s).setStatus (.faulted .pcOutOfRange (s.pc.toNat + 1 + countAt s)) := by
  rw [step_of_operandsValid hs hv, effectAndNextPc, if_neg htaken, if_pos hn]

end

/-! ### The effects of item 6 -/

theorem setNamed_eq_setReg {o : Byte} {i : RegIndex} (h : i.val = o.toNat) (v : Word xlen) :
    setNamed s o v = s.setReg i v := by
  have hx : s.x.setIfInBounds i.val v = s.x.set i.val v := by
    ext k hk
    simp [Vector.getElem_set, Vector.getElem_setIfInBounds]
  simp [setNamed, State.setReg, ← h, hx]

/-- A result the pseudocode reduces modulo `2 ^ XLEN` is the ALU's narrowed one (43_alu.md R121). -/
theorem ofNat_mod_eq_narrow (n : Nat) : BitVec.ofNat xlen.bits (n % 2 ^ xlen.bits) = narrow n :=
  BitVec.eq_of_toNat_eq (by simp)

theorem effect_of_ldi (hop : opcodeAt s = 0x82#8) {i : RegIndex} (hi : i.val = (operand1At s).toNat) :
    effect s = s.setReg i (immediate (operand2At s)) := by
  simp [effect, hop, immediate, setNamed_eq_setReg hi]

theorem effect_of_prn (hop : opcodeAt s = 0x47#8) {i : RegIndex} (hi : i.val = (operand1At s).toNat) :
    effect s = s.emit (s.reg i) := by
  simp [effect, hop, regNamed_eq_reg hi, State.emit]

section

variable {i j : RegIndex} (hi : i.val = (operand1At s).toNat) (hj : j.val = (operand2At s).toNat)
include hi hj

theorem effect_of_add (hop : opcodeAt s = 0xA0#8) : effect s = aluExecute .add i j s := by
  simp [effect, hop, regNamed_eq_reg hi, regNamed_eq_reg hj, setNamed_eq_setReg hi, aluExecute, ofNat_mod_eq_narrow]

theorem effect_of_mul (hop : opcodeAt s = 0xA2#8) : effect s = aluExecute .mul i j s := by
  simp [effect, hop, regNamed_eq_reg hi, regNamed_eq_reg hj, setNamed_eq_setReg hi, aluExecute, ofNat_mod_eq_narrow]

theorem effect_of_cmp (hop : opcodeAt s = 0xA7#8) : effect s = aluExecute .cmp i j s := by
  simp only [effect, hop, BitVec.reduceEq, ↓reduceIte, regNamed_eq_reg hi, regNamed_eq_reg hj, BitVec.toNat_inj,
    gt_iff_lt, aluExecute, Flags.compare]
  split_ifs <;> rfl

end

/-- A control transfer has no effect on data. -/
theorem effect_of_transfer (hop : opcodeAt s = 0x54#8 ∨ opcodeAt s = 0x55#8 ∨ opcodeAt s = 0x56#8) : effect s = s := by
  rcases hop with h | h | h <;> simp [effect, h]

end Sys2Proof.Rule80
end

section
/-! The step is the pseudocode of 40_cycle.md R80: each shared operation of the model, in the state where an instruction
calls it, answers what the pseudocode does from there on. -/

namespace Sys2Proof.Machine

variable {xlen : Xlen} {s : State xlen}

/-! ### The shared operations -/

/-- The check of operand 1. -/
theorem withReg_operand1_eq_pseudocode (hs : ExecutesNonHlt s) {k : RegIndex → Result xlen}
    (hk : ∀ i : RegIndex, i.val = (operand1At s).toNat → k i = .next (Rule80.step s)) :
    withReg (operand1At s) s k = .next (Rule80.step s) := by
  by_cases h1 : (operand1At s).toNat < 8
  · rw [withReg_of_lt s k h1]
    exact hk _ rfl
  · have hgt : 7 < (operand1At s).toNat := by omega
    rw [withReg_of_gt s k hgt, raise_eq_next, Rule80.step_of_operand1_gt hs hgt]

/-- The check of operand 2, after operand 1 was found good. -/
theorem withReg_operand2_eq_pseudocode (hs : ExecutesNonHlt s) (halu : aluAt s) (h1 : (operand1At s).toNat ≤ 7)
    {k : RegIndex → Result xlen}
    (hk : ∀ j : RegIndex, j.val = (operand2At s).toNat → k j = .next (Rule80.step s)) :
    withReg (operand2At s) s k = .next (Rule80.step s) := by
  by_cases h2 : (operand2At s).toNat < 8
  · rw [withReg_of_lt s k h2]
    exact hk _ rfl
  · have hgt : 7 < (operand2At s).toNat := by omega
    rw [withReg_of_gt s k hgt, raise_eq_next, Rule80.step_of_operand2_gt hs halu h1 hgt]

/-- The default advance, from the state the effect of item 6 leaves. -/
theorem advance_effect_eq_pseudocode (hs : ExecutesNonHlt s) (hv : Rule80.operandsValid s) (htaken : ¬ takenAt s) :
    advance (countAt s) (Rule80.effect s) = .next (Rule80.step s) := by
  by_cases hn : s.pc.toNat + 1 + countAt s ≤ 255
  · rw [advance_fits _ (by simpa using hn), Rule80.step_of_advance_fits hs hv htaken hn, Rule80.effect_pc]
  · rw [advance_past _ (by simpa using hn), raise_eq_next, Rule80.effect_pc,
      Rule80.step_of_advance_past hs hv htaken (Nat.not_le.1 hn)]

/-- The taken transfer. -/
theorem transfer_eq_pseudocode (hs : ExecutesNonHlt s) (hv : Rule80.operandsValid s) (htaken : takenAt s = true) :
    transfer (regNamed s (operand1At s)) s = .next (Rule80.step s) := by
  by_cases ht : (regNamed s (operand1At s)).toNat ≤ 255
  · rw [transfer_fits s ht, Rule80.step_of_taken_fits hs hv htaken ht]
  · rw [transfer_past s (Nat.not_le.1 ht), raise_eq_next,
      Rule80.step_of_taken_past hs hv htaken (Nat.not_le.1 ht)]

/-! ### The instructions -/

/-- Operand 1 alone is checked where the instruction is not one of the ALU. -/
theorem operandsValid_of_not_alu (hs : ExecutesNonHlt s) (halu : ¬ aluAt s) {i : RegIndex}
    (hi : i.val = (operand1At s).toNat) : Rule80.operandsValid s :=
  ⟨hs.fits, fun _ => by omega, fun h => absurd h halu⟩

theorem aluInstruction_eq_pseudocode (hs : ExecutesNonHlt s) (halu : aluAt s) {op : AluOp}
    (heffect : ∀ i j : RegIndex, i.val = (operand1At s).toNat → j.val = (operand2At s).toNat →
      Rule80.effect s = aluExecute op i j s) :
    aluInstruction op (operand1At s) (operand2At s) s = .next (Rule80.step s) := by
  obtain ⟨hcount, htaken⟩ := countAt_takenAt_of_aluAt halu
  rw [aluInstruction, withOperands_fits s _ (hcount ▸ hs.fits)]
  refine withReg_operand1_eq_pseudocode hs fun i hi => ?_
  refine withReg_operand2_eq_pseudocode hs halu (by omega) fun j hj => ?_
  have hv : Rule80.operandsValid s := ⟨hs.fits, fun _ => by omega, fun _ => by omega⟩
  rw [← heffect i j hi hj, ← hcount]
  exact advance_effect_eq_pseudocode hs hv (by simp [htaken])

theorem branchInstruction_eq_pseudocode (hs : ExecutesNonHlt s)
    (hop : opcodeAt s = 0x54#8 ∨ opcodeAt s = 0x55#8 ∨ opcodeAt s = 0x56#8) {taken : Bool} (htaken : takenAt s = taken) :
    branchInstruction taken (operand1At s) s = .next (Rule80.step s) := by
  have hcount : countAt s = 1 := by rcases hop with h | h | h <;> simp [countAt, h]
  have halu : ¬ aluAt s := fun h => by simp [(countAt_takenAt_of_aluAt h).1] at hcount
  rw [branchInstruction, withOperands_fits s _ (hcount ▸ hs.fits)]
  refine withReg_operand1_eq_pseudocode hs fun i hi => ?_
  have hv := operandsValid_of_not_alu hs halu hi
  cases taken with
  | true =>
    rw [if_pos rfl, ← regNamed_eq_reg hi]
    exact transfer_eq_pseudocode hs hv htaken
  | false =>
    have h := advance_effect_eq_pseudocode hs hv (by simp [htaken])
    rwa [Rule80.effect_of_transfer hop, hcount] at h

theorem execLdi_eq_pseudocode (hs : ExecutesNonHlt s) (hop : opcodeAt s = 0x82#8) :
    execLdi (operand1At s) (operand2At s) s = .next (Rule80.step s) := by
  have hcount : countAt s = 2 := by simp [countAt, hop]
  rw [execLdi, withOperands_fits s _ (hcount ▸ hs.fits)]
  refine withReg_operand1_eq_pseudocode hs fun i hi => ?_
  rw [← Rule80.effect_of_ldi hop hi, ← hcount]
  exact advance_effect_eq_pseudocode hs (operandsValid_of_not_alu hs (by simp [aluAt, hop]) hi) (by simp [takenAt, hop])

theorem execPrn_eq_pseudocode (hs : ExecutesNonHlt s) (hop : opcodeAt s = 0x47#8) :
    execPrn (operand1At s) s = .next (Rule80.step s) := by
  have hcount : countAt s = 1 := by simp [countAt, hop]
  rw [execPrn, withOperands_fits s _ (hcount ▸ hs.fits)]
  refine withReg_operand1_eq_pseudocode hs fun i hi => ?_
  rw [← Rule80.effect_of_prn hop hi, ← hcount]
  exact advance_effect_eq_pseudocode hs (operandsValid_of_not_alu hs (by simp [aluAt, hop]) hi) (by simp [takenAt, hop])

theorem execHlt_eq_pseudocode (hop : opcodeAt s = 0x01#8) : execHlt s = .next (Rule80.step s) := by
  have hcount : countAt s = 0 := by simp [countAt, hop]
  have halu : ¬ aluAt s := by simp [aluAt, hop]
  have hpc : BitVec.ofNat 8 ((s.pc.toNat + 1) % 256) = BitVec.ofNat 8 (s.pc.toNat + 1) :=
    BitVec.eq_of_toNat_eq (by simp)
  have hlt : ¬ s.pc.toNat > 255 := by have := s.pc_lt; omega
  simp [Rule80.step, hop, supportedBytes, hcount, halu, hlt, hpc, execHlt, State.setPc, State.setStatus]

/-- An instruction at the pc with all its bytes does what the pseudocode does. -/
theorem execute_eq_pseudocode (hrun : s.status = .running) {i : Instr} (hi : EncodedAtPc s i) :
    execute i s = .next (Rule80.step s) := by
  have hop := hi.opcodeAt_eq
  by_cases hhlt : i = .hlt
  · subst hhlt
    exact execHlt_eq_pseudocode hop
  have hs : ExecutesNonHlt s :=
    ⟨hrun, mem_supportedBytes_iff.2 ⟨_, hop⟩, fun h => hhlt (hi.opcodeAt_eq_hlt_iff.1 h), hi.2⟩
  cases i with
  | hlt => exact absurd rfl hhlt
  | ldi r imm =>
    obtain ⟨rfl, rfl⟩ := hi.two_operands rfl
    exact execLdi_eq_pseudocode hs hop
  | prn r =>
    obtain rfl := hi.one_operand rfl
    exact execPrn_eq_pseudocode hs hop
  | add a b =>
    obtain ⟨rfl, rfl⟩ := hi.two_operands rfl
    exact aluInstruction_eq_pseudocode hs (by simp [aluAt, hop, Instr.opcode, Opcode.byte])
      fun _ _ ha hb => Rule80.effect_of_add ha hb hop
  | mul a b =>
    obtain ⟨rfl, rfl⟩ := hi.two_operands rfl
    exact aluInstruction_eq_pseudocode hs (by simp [aluAt, hop, Instr.opcode, Opcode.byte])
      fun _ _ ha hb => Rule80.effect_of_mul ha hb hop
  | cmp a b =>
    obtain ⟨rfl, rfl⟩ := hi.two_operands rfl
    exact aluInstruction_eq_pseudocode hs (by simp [aluAt, hop, Instr.opcode, Opcode.byte])
      fun _ _ ha hb => Rule80.effect_of_cmp ha hb hop
  | jmp r =>
    obtain rfl := hi.one_operand rfl
    have htaken : takenAt s = true := by simp [takenAt, hop, Instr.opcode, Opcode.byte]
    exact branchInstruction_eq_pseudocode hs (.inl hop) htaken
  | jeq r =>
    obtain rfl := hi.one_operand rfl
    have htaken : takenAt s = s.fl.e := by simp [takenAt, hop, Instr.opcode, Opcode.byte]
    exact branchInstruction_eq_pseudocode hs (.inr (.inl hop)) htaken
  | jne r =>
    obtain rfl := hi.one_operand rfl
    have htaken : takenAt s = !s.fl.e := by simp [takenAt, hop, Instr.opcode, Opcode.byte]
    exact branchInstruction_eq_pseudocode hs (.inr (.inr hop)) htaken

/-- The step of a RUNNING machine is the pseudocode, whatever `XLEN` is. -/
theorem stepAt_eq_pseudocode (hrun : s.status = .running) : stepAt s = .next (Rule80.step s) := by
  by_cases hop : opcodeAt s ∈ supportedBytes
  · by_cases hfits : s.pc.toNat + countAt s ≤ 255
    · obtain ⟨i, hi, hstep⟩ := stepAt_of_operands_fit hrun hop hfits
      rw [hstep, execute_eq_pseudocode hrun hi]
    · have hpast : 255 < s.pc.toNat + countAt s := Nat.not_le.1 hfits
      rw [stepAt_of_operands_past hrun hop hpast, raise_eq_next, Rule80.step_of_operands_past hop hpast]
  · rw [stepAt_of_not_supported hrun hop, raise_eq_next, Rule80.step_of_not_supported hop]

/-- The step of this hardware is the pseudocode. -/
theorem step_eq_pseudocode {s : State} (hrun : s.status = .running) : step s = .next (Rule80.step s) := by
  rw [step_eq_stepAt, stepAt_eq_pseudocode hrun]

/-- Settles O10: the step finds at the pc what the pseudocode finds there, and each instruction's meaning is then the
pseudocode's items 5 to 7. -/
theorem stepIsThePseudocode : Obligations.StepIsThePseudocode :=
  ⟨fun _ => step_eq_pseudocode, fun _ _ => stepAt_eq_pseudocode⟩

end Sys2Proof.Machine
end

section
/-! The step, fault by fault and pc by pc (40_cycle.md R82 to R89): the cases of the pseudocode for this hardware. -/

namespace Sys2Proof.Machine

/-- Settles O13: an unsupported opcode is refused before anything else. -/
theorem unsupportedOpcodeRaises : Obligations.UnsupportedOpcodeRaises := by
  intro s hrun hop
  rw [step_eq_pseudocode hrun, Rule80.step_of_not_supported hop]
  rfl

/-- No supported opcode counts more than two operands (30_encoding.md R67). -/
theorem countAt_le_two {xlen : Xlen} {s : State xlen} (hop : opcodeAt s ∈ supportedBytes) : countAt s ≤ 2 := by
  obtain ⟨o, ho⟩ := mem_supportedBytes_iff.1 hop
  rw [countAt, ho]
  cases o <;> decide

/-- Settles O14: operands past the end are missed before any effect; HLT, which has none, always halts. -/
theorem operandFetchPastTheEndRaises : Obligations.OperandFetchPastTheEndRaises := by
  refine ⟨fun s hrun hop hpast => ⟨?_, ?_⟩, fun s t _ hop hstep info hst => ?_⟩
  · rw [step_eq_pseudocode hrun, Rule80.step_of_operands_past hop hpast]
    rfl
  · have hcount := countAt_le_two hop
    have hpc := s.pc_lt
    omega
  · rw [step_eq_stepAt] at hstep
    rcases stepAt_status hstep with ⟨-, hhalt⟩ | ⟨hne, -⟩
    · rw [hhalt] at hst
      cases hst
    · exact hne hop

/-- ADD, MUL and CMP are supported. -/
theorem executesNonHlt_of_aluAt {xlen : Xlen} {s : State xlen} (hrun : s.status = .running) (h : aluAt s)
    (hfits : s.pc.toNat + 2 ≤ 255) : ExecutesNonHlt s := by
  have hcount := (countAt_takenAt_of_aluAt h).1
  simp only [aluAt, Bool.or_eq_true, beq_iff_eq] at h
  refine ⟨hrun, ?_, ?_, hcount ▸ hfits⟩ <;> rcases h with (h | h) | h <;> simp [h, supportedBytes]

/-- A taken control transfer is supported. -/
theorem executesNonHlt_of_takenAt {xlen : Xlen} {s : State xlen} (hrun : s.status = .running) (h : takenAt s)
    (hfits : s.pc.toNat + countAt s ≤ 255) : ExecutesNonHlt s := by
  simp only [takenAt, Bool.or_eq_true, Bool.and_eq_true, beq_iff_eq] at h
  refine ⟨hrun, ?_, ?_, hfits⟩ <;> rcases h with (h | ⟨h, -⟩) | ⟨h, -⟩ <;> simp [h, supportedBytes]

/-- A fault that a step leaves is one the old state accounts for. -/
theorem faultExplained_of_step {s t : State} (hstep : step s = .next t) {c : Cause} {info : Nat}
    (hst : t.status = .faulted c info) : FaultExplained s c info := by
  rw [step_eq_stepAt] at hstep
  rcases stepAt_status hstep with ⟨-, hhalt⟩ | ⟨-, hr | ⟨c', info', hf, hexplained⟩⟩
  · simp [hhalt] at hst
  · simp [hr] at hst
  · rw [hf] at hst
    cases hst
    exact hexplained

/-- Settles O15: operand 1 is checked first, then operand 2 of an ALU instruction; LDI's immediate accounts for no
fault. -/
theorem registerIndexIsChecked : Obligations.RegisterIndexIsChecked := by
  refine ⟨fun s hrun hop hne hfits h1 => ?_, fun s hrun halu hfits h1 h2 => ?_, fun s t _ hop h1 hstep info hst => ?_⟩
  · rw [step_eq_pseudocode hrun, Rule80.step_of_operand1_gt ⟨hrun, hop, hne, hfits⟩ h1]
    rfl
  · rw [step_eq_pseudocode hrun, Rule80.step_of_operand2_gt (executesNonHlt_of_aluAt hrun halu hfits) halu h1 h2]
    rfl
  · obtain ⟨-, -, -, hgt, rfl | ⟨halu, -⟩⟩ := faultExplained_of_step hstep hst
    · omega
    · simp [aluAt, hop] at halu

/-- Settles O16: the default advance fits, and a register of this hardware always holds a legal target. -/
theorem defaultAdvanceOrTarget : Obligations.DefaultAdvanceOrTarget := by
  refine ⟨fun s hrun hop hne htaken hv hn => ?_, fun s hrun htaken hv => ?_⟩
  · have hs : ExecutesNonHlt s := ⟨hrun, hop, hne, hv.1⟩
    refine ⟨_, step_eq_pseudocode hrun, ?_⟩
    rw [Rule80.step_of_advance_fits hs hv htaken hn]
    exact ⟨Nat.mod_eq_of_lt (by omega), by simpa using hrun⟩
  · have hs := executesNonHlt_of_takenAt hrun htaken hv.1
    refine ⟨_, step_eq_pseudocode hrun, ?_⟩
    rw [Rule80.step_of_taken_fits hs hv htaken (Word.le_255 _)]
    exact ⟨by simp, hrun⟩

/-- Settles O17: operands that fit leave 256 as the only pc out of range; a register of this hardware holds no such
target. -/
theorem advancePastTheEndRaises : Obligations.AdvancePastTheEndRaises := by
  refine ⟨fun s hrun hop hne htaken hv hn => ?_, fun s t _ htaken hstep info hst => ?_⟩
  · have hs : ExecutesNonHlt s := ⟨hrun, hop, hne, hv.1⟩
    have hsum : s.pc.toNat + 1 + countAt s = 256 := by have := hs.fits; omega
    refine ⟨hsum, ?_⟩
    rw [step_eq_pseudocode hrun, Rule80.step_of_advance_past hs hv htaken hn, hsum]
    rfl
  · obtain ⟨-, -, -, htarget⟩ := faultExplained_of_step hstep hst
    rw [if_pos htaken] at htarget
    have hle := Word.le_255 (regNamed s (operand1At s))
    omega

end Sys2Proof.Machine
end

section
/-! What a step depends on (40_cycle.md R91). Two machines are run side by side: alike before, each shared operation
changes them alike, so the two steps do. -/

namespace Sys2Proof.Machine

variable {xlen : Xlen}

/-- From `s` to `t` and from `s'` to `t'` the same has happened: `t` and `t'` agree on the registers, the pc, `FL.E` and
the status, the same was printed and set of the other two flags, and the stores were left alone. -/
structure ChangedAlike (s s' t t' : State xlen) : Prop where
  x : t.x = t'.x
  pc : t.pc = t'.pc
  e : t.fl.e = t'.fl.e
  status : t.status = t'.status
  out : ∃ printed, t.out = s.out ++ printed ∧ t'.out = s'.out ++ printed
  l : ∃ setL, t.fl.l = (s.fl.l || setL) ∧ t'.fl.l = (s'.fl.l || setL)
  g : ∃ setG, t.fl.g = (s.fl.g || setG) ∧ t'.fl.g = (s'.fl.g || setG)
  imem : t.imem = s.imem
  imem' : t'.imem = s'.imem

/-- CMP's three flags, each raised by its own relation (43_alu.md R125). -/
theorem Flags.compare_eq (f : Flags) (a b : Word xlen) :
    f.compare a b =
      ⟨f.e || decide (a.toNat = b.toNat), f.l || decide (a.toNat < b.toNat), f.g || decide (b.toNat < a.toNat)⟩ := by
  rcases f.compare_cases a b with ⟨h, hf⟩ | ⟨h, hf⟩ | ⟨h, hf⟩
  · simp [hf, h]
  · simp [hf, h, h.ne, h.le]
  · simp [hf, h, h.ne', h.le]

variable {s s' t t' : State xlen}

/-! ### The updates of the state -/

/-- Two machines that have done nothing. -/
theorem ChangedAlike.refl (hx : s.x = s'.x) (hpc : s.pc = s'.pc) (he : s.fl.e = s'.fl.e) (hst : s.status = s'.status) :
    ChangedAlike s s' s s' :=
  ⟨hx, hpc, he, hst, ⟨[], by simp⟩, ⟨false, by simp⟩, ⟨false, by simp⟩, rfl, rfl⟩

namespace ChangedAlike

theorem reg (h : ChangedAlike s s' t t') (i : RegIndex) : t.reg i = t'.reg i := by
  rw [State.reg, State.reg, h.x]

theorem setStatus (h : ChangedAlike s s' t t') (st : Status) :
    ChangedAlike s s' (t.setStatus st) (t'.setStatus st) :=
  { h with status := rfl }

theorem setPc (h : ChangedAlike s s' t t') (p : Pc) : ChangedAlike s s' (t.setPc p) (t'.setPc p) :=
  { h with pc := rfl }

theorem setReg (h : ChangedAlike s s' t t') (i : RegIndex) (v : Word xlen) :
    ChangedAlike s s' (t.setReg i v) (t'.setReg i v) :=
  { h with x := by simp [h.x] }

theorem emit (h : ChangedAlike s s' t t') (v : Word xlen) : ChangedAlike s s' (t.emit v) (t'.emit v) := by
  obtain ⟨printed, ht, ht'⟩ := h.out
  exact { h with out := ⟨printed ++ [v], by simp [ht], by simp [ht']⟩ }

theorem compare (h : ChangedAlike s s' t t') (a b : Word xlen) :
    ChangedAlike s s' (t.setFlags (t.fl.compare a b)) (t'.setFlags (t'.fl.compare a b)) := by
  obtain ⟨setL, hl, hl'⟩ := h.l
  obtain ⟨setG, hg, hg'⟩ := h.g
  simp only [Flags.compare_eq]
  exact { h with
    e := by simp [h.e]
    l := ⟨setL || decide (a.toNat < b.toNat), by simp [hl, Bool.or_assoc], by simp [hl', Bool.or_assoc]⟩
    g := ⟨setG || decide (b.toNat < a.toNat), by simp [hg, Bool.or_assoc], by simp [hg', Bool.or_assoc]⟩ }

theorem aluExecute (h : ChangedAlike s s' t t') (op : AluOp) (i j : RegIndex) :
    ChangedAlike s s' (aluExecute op i j t) (aluExecute op i j t') := by
  cases op with
  | add =>
    simp only [Machine.aluExecute, h.reg]
    exact h.setReg i _
  | mul =>
    simp only [Machine.aluExecute, h.reg]
    exact h.setReg i _
  | cmp =>
    simp only [Machine.aluExecute, h.reg]
    exact h.compare _ _

end ChangedAlike

/-! ### The shared operations -/

/-- Both answers are next states, reached from `s` and `s'` by the same change. -/
def AnswersAlike (s s' : State xlen) (r r' : Result xlen) : Prop :=
  ∃ t t', r = .next t ∧ r' = .next t' ∧ ChangedAlike s s' t t'

theorem raise_alike (h : ChangedAlike s s' t t') (c : Cause) (info : Nat) :
    AnswersAlike s s' (raise c info t) (raise c info t') :=
  ⟨_, _, rfl, rfl, h.setStatus _⟩

theorem advance_alike (h : ChangedAlike s s' t t') (n : Nat) : AnswersAlike s s' (advance n t) (advance n t') := by
  by_cases hn : t.pc.toNat + 1 + n ≤ 255
  · rw [advance_fits t hn, advance_fits t' (h.pc ▸ hn), h.pc]
    exact ⟨_, _, rfl, rfl, h.setPc _⟩
  · rw [advance_past t (Nat.not_le.1 hn), advance_past t' (h.pc ▸ Nat.not_le.1 hn), h.pc]
    exact raise_alike h _ _

theorem transfer_alike (h : ChangedAlike s s' t t') (v : Word xlen) :
    AnswersAlike s s' (transfer v t) (transfer v t') := by
  by_cases hv : v.toNat ≤ 255
  · rw [transfer_fits t hv, transfer_fits t' hv]
    exact ⟨_, _, rfl, rfl, h.setPc _⟩
  · rw [transfer_past t (Nat.not_le.1 hv), transfer_past t' (Nat.not_le.1 hv)]
    exact raise_alike h _ _

theorem withOperands_alike (h : ChangedAlike s s' t t') {n : Nat} {k k' : Result xlen} (hk : AnswersAlike s s' k k') :
    AnswersAlike s s' (withOperands n t k) (withOperands n t' k') := by
  by_cases hn : t.pc.toNat + n ≤ 255
  · rwa [withOperands_fits t k hn, withOperands_fits t' k' (h.pc ▸ hn)]
  · rw [withOperands_past t k (Nat.not_le.1 hn), withOperands_past t' k' (h.pc ▸ Nat.not_le.1 hn), h.pc]
    exact raise_alike h _ _

theorem withReg_alike (h : ChangedAlike s s' t t') {o : Byte} {k k' : RegIndex → Result xlen}
    (hk : ∀ i, AnswersAlike s s' (k i) (k' i)) : AnswersAlike s s' (withReg o t k) (withReg o t' k') := by
  by_cases ho : o.toNat < 8
  · rw [withReg_of_lt t k ho, withReg_of_lt t' k' ho]
    exact hk _
  · rw [withReg_of_gt t k (by omega), withReg_of_gt t' k' (by omega)]
    exact raise_alike h _ _

theorem aluInstruction_alike (h : ChangedAlike s s' t t') (op : AluOp) (a b : Byte) :
    AnswersAlike s s' (aluInstruction op a b t) (aluInstruction op a b t') :=
  withOperands_alike h <| withReg_alike h fun i => withReg_alike h fun j => advance_alike (h.aluExecute op i j) 2

theorem branchInstruction_alike (h : ChangedAlike s s' t t') (taken : Bool) (r : Byte) :
    AnswersAlike s s' (branchInstruction taken r t) (branchInstruction taken r t') := by
  refine withOperands_alike h <| withReg_alike h fun i => ?_
  cases taken with
  | true =>
    rw [h.reg]
    exact transfer_alike h _
  | false => exact advance_alike h 1

/-- Each instruction changes machines alike alike: what it reads of the state is registers, the pc and `FL.E`. -/
theorem execute_alike (h : ChangedAlike s s' t t') (i : Instr) : AnswersAlike s s' (execute i t) (execute i t') := by
  cases i with
  | hlt =>
    refine ⟨_, _, rfl, rfl, ?_⟩
    rw [h.pc]
    exact (h.setStatus .halted).setPc _
  | ldi r imm => exact withOperands_alike h <| withReg_alike h fun i => advance_alike (h.setReg i (immediate imm)) 2
  | prn r =>
    refine withOperands_alike h <| withReg_alike h fun i => ?_
    rw [h.reg]
    exact advance_alike (h.emit _) 1
  | add a b => exact aluInstruction_alike h .add a b
  | mul a b => exact aluInstruction_alike h .mul a b
  | cmp a b => exact aluInstruction_alike h .cmp a b
  | jmp r => exact branchInstruction_alike h true r
  | jeq r =>
    rw [execute, execute, execJeq, execJeq, h.e]
    exact branchInstruction_alike h _ r
  | jne r =>
    rw [execute, execute, execJne, execJne, h.e]
    exact branchInstruction_alike h _ r

/-! ### The step -/

/-- The bytes fetched are those of the existing cells from the pc to `pc + 2` (40_cycle.md R81, R84). -/
theorem fetchBytes_congr (hpc : s.pc = s'.pc)
    (hbytes : ∀ k, k ≤ 2 → s.pc.toNat + k ≤ 255 → s.imem.read (s.pc.toNat + k) = s'.imem.read (s.pc.toNat + k)) :
    fetchBytes s = fetchBytes s' := by
  rw [fetchBytes, fetchBytes, ← hpc]
  refine List.map_congr_left fun a ha => ?_
  obtain ⟨hrange, hcell⟩ := List.mem_filter.1 ha
  obtain ⟨hle, hlt⟩ := List.mem_range'_1.1 hrange
  have hcell : a < 256 := of_decide_eq_true hcell
  rw [Config.ilenMax_eq] at hlt
  have hbyte := hbytes (a - s.pc.toNat) (by omega) (by omega)
  rwa [Nat.add_sub_cancel' hle] at hbyte

theorem stepAt_alike (h : ChangedAlike s s' s s') (hrun : s.status = .running) (hfetch : fetchBytes s = fetchBytes s') :
    AnswersAlike s s' (stepAt s) (stepAt s') := by
  have hrun' : s'.status = .running := h.status ▸ hrun
  cases hd : decode (fetchBytes s) with
  | ok i rest =>
    rw [stepAt_of_ok s hrun hd, stepAt_of_ok s' hrun' (hfetch ▸ hd)]
    exact execute_alike h i
  | unsupported op =>
    rw [stepAt_of_unsupported s hrun hd, stepAt_of_unsupported s' hrun' (hfetch ▸ hd)]
    exact raise_alike h _ _
  | truncated =>
    rw [stepAt_of_truncated s hrun hd, stepAt_of_truncated s' hrun' (hfetch ▸ hd), h.pc]
    exact raise_alike h _ _

/-- Settles O12: two RUNNING machines that agree on the registers, the pc, `FL.E` and the bytes at the pc are alike, so
their steps change them alike. -/
theorem stepDependsOnlyOnItsInputs : Obligations.StepDependsOnlyOnItsInputs := by
  intro s s' hrun hrun' hx hpc he hbytes
  have h : ChangedAlike s s' s s' := .refl hx hpc he (hrun.trans hrun'.symm)
  obtain ⟨t, t', ht, ht', halike⟩ := stepAt_alike h hrun (fetchBytes_congr hpc hbytes)
  rw [← step_eq_stepAt] at ht ht'
  exact ⟨t, t', ht, ht', halike.x, halike.pc, halike.e, halike.status, halike.out, halike.l, halike.g, halike.imem,
    halike.imem'⟩

end Sys2Proof.Machine
end

section
/-! LDI and PRN (41_load_print.md R100, R101): both test the operand range, then the register index, then act and
advance. -/

namespace Sys2Proof.Machine

variable {xlen : Xlen} (s : State xlen)

/-! ### The shared operations -/

/-- An instruction whose operands fit goes on with the register that its first operand names (R83, R85). -/
theorem withOperands_withReg_of_lt {n : Nat} {o : Byte} (k : RegIndex → Result xlen) (hn : s.pc.toNat + n ≤ 255)
    (ho : o.toNat < 8) : withOperands n s (withReg o s k) = k ⟨o.toNat, ho⟩ := by
  rw [withOperands_fits s _ hn, withReg_of_lt s k ho]

/-- An instruction whose operands fit refuses a first operand that names no register (R83, R85). -/
theorem withOperands_withReg_of_gt {n : Nat} {o : Byte} (k : RegIndex → Result xlen) (hn : s.pc.toNat + n ≤ 255)
    (ho : 7 < o.toNat) : withOperands n s (withReg o s k) = raise .registerIndexOutOfRange o.toNat s := by
  rw [withOperands_fits s _ hn, withReg_of_gt s k ho]

/-- The default advance that fits, as addition to the pc (R88). -/
theorem advance_fits_add {n : Nat} (h : s.pc.toNat + 1 + n ≤ 255) :
    advance n s = .next (s.setPc (s.pc + BitVec.ofNat 8 (1 + n))) := by
  rw [advance_fits s h, Nat.add_assoc, BitVec.ofNat_add, BitVec.ofNat_toNat, BitVec.setWidth_eq]

/-- The immediate is its byte's value, zero-extended (30_encoding.md R64). -/
theorem immediate_eq_ofNat (imm : Byte) : (immediate imm : Word xlen) = BitVec.ofNat xlen.bits imm.toNat :=
  (BitVec.ofNat_toNat xlen.bits imm).symm

/-! ### LDI -/

variable {r : Byte} (imm : Byte)

theorem execLdi_of_operands_past (h : 254 ≤ s.pc.toNat) :
    execLdi r imm s = raise .operandFetchOutOfRange s.pc.toNat s :=
  withOperands_past s _ (by omega)

theorem execLdi_of_gt (hpc : s.pc.toNat ≤ 253) (hr : 7 < r.toNat) :
    execLdi r imm s = raise .registerIndexOutOfRange r.toNat s :=
  withOperands_withReg_of_gt s _ (by omega) hr

/-- LDI with a register: the write, then the default advance of the written state. -/
theorem execLdi_of_lt (hpc : s.pc.toNat ≤ 253) (hr : r.toNat < 8) :
    execLdi r imm s = advance 2 (s.setReg ⟨r.toNat, hr⟩ (BitVec.ofNat xlen.bits imm.toNat)) := by
  rw [execLdi, withOperands_withReg_of_lt s _ (by omega) hr, immediate_eq_ofNat]

/-- Settles O21: the tests of LDI in their order, then the write and the advance, which runs past the end only at pc
253. -/
theorem ldiFollowsItsRule : Obligations.LdiFollowsItsRule := by
  intro r imm s
  refine ⟨⟨rfl, decode_encode_append (.ldi r imm)⟩, execLdi_of_operands_past s imm, execLdi_of_gt s imm,
    fun hpc hr => ?_, fun hpc hr => ?_⟩
  · calc exec (.ldi r imm) s
        = advance 2 (s.setReg ⟨r.toNat, hr⟩ _) := execLdi_of_lt s imm hpc.le hr
      _ = raise .pcOutOfRange (s.pc.toNat + 1 + 2) (s.setReg ⟨r.toNat, hr⟩ _) := advance_past _ (by simp [hpc])
      _ = _ := by rw [hpc]; rfl
  · calc exec (.ldi r imm) s
        = advance 2 (s.setReg ⟨r.toNat, hr⟩ _) := execLdi_of_lt s imm (by omega) hr
      _ = _ := advance_fits_add _ (by rw [State.setReg_pc]; omega)

/-! ### PRN -/

theorem execPrn_of_operand_past (h : s.pc.toNat = 255) :
    execPrn r s = raise .operandFetchOutOfRange s.pc.toNat s :=
  withOperands_past s _ (by omega)

theorem execPrn_of_gt (hpc : s.pc.toNat ≤ 254) (hr : 7 < r.toNat) :
    execPrn r s = raise .registerIndexOutOfRange r.toNat s :=
  withOperands_withReg_of_gt s _ (by omega) hr

/-- PRN with a register: its value to the output, then the default advance of the state with it. -/
theorem execPrn_of_lt (hpc : s.pc.toNat ≤ 254) (hr : r.toNat < 8) :
    execPrn r s = advance 1 (s.emit (s.reg ⟨r.toNat, hr⟩)) :=
  withOperands_withReg_of_lt s _ (by omega) hr

/-- Settles O22: the tests of PRN in their order, then the output and the advance, which runs past the end only at pc
254. -/
theorem prnFollowsItsRule : Obligations.PrnFollowsItsRule := by
  intro r s
  refine ⟨⟨rfl, decode_encode_append (.prn r)⟩, fun hpc => ?_, execPrn_of_gt s, fun hpc hr => ?_, fun hpc hr => ?_⟩
  · rw [← hpc]
    exact execPrn_of_operand_past s hpc
  · calc exec (.prn r) s
        = advance 1 (s.emit (s.reg ⟨r.toNat, hr⟩)) := execPrn_of_lt s hpc.le hr
      _ = raise .pcOutOfRange (s.pc.toNat + 1 + 1) (s.emit (s.reg ⟨r.toNat, hr⟩)) := advance_past _ (by simp [hpc])
      _ = _ := by rw [hpc]; rfl
  · calc exec (.prn r) s
        = advance 1 (s.emit (s.reg ⟨r.toNat, hr⟩)) := execPrn_of_lt s (by omega) hr
      _ = _ := advance_fits_add _ (by rw [State.emit_pc]; omega)

end Sys2Proof.Machine
end

section
/-! HLT (42_halt.md R110): it tests nothing, halts, and leaves the pc one on modulo 256. -/

namespace Sys2Proof.Machine

variable {xlen : Xlen} {s t : State xlen}

variable (s) in
/-- What HLT leaves, with the wrap of the pc written out: the pc has 8 bits. -/
theorem execHlt_eq_next :
    execHlt s = .next ((s.setStatus .halted).setPc (BitVec.ofNat 8 ((s.pc.toNat + 1) % 256))) := by
  have hpc : BitVec.ofNat 8 ((s.pc.toNat + 1) % 256) = BitVec.ofNat 8 (s.pc.toNat + 1) :=
    BitVec.eq_of_toNat_eq (by simp)
  rw [hpc, execHlt]

theorem execHlt_next_halted (h : execHlt s = .next t) : t.status = .halted := by
  rw [execHlt_eq_next] at h
  cases h
  rfl

/-- Settles O23: HLT leaves HALTED; that no step follows it, and that no other opcode leads to it, is part of the
transitions of the status. -/
theorem hltFollowsItsRule : Obligations.HltFollowsItsRule := by
  intro s
  obtain ⟨-, htransition, hterminal⟩ := statusTransitions
  refine ⟨⟨rfl, decode_encode_append .hlt⟩, execHlt_eq_next s, fun t ht u => ?_, fun t hstep hhalted => ?_⟩
  · have hhalted : t.status = .halted := execHlt_next_halted ht
    exact hterminal t u (by simp [hhalted])
  · obtain ⟨-, hhalted_iff, -⟩ := htransition s t hstep
    exact hhalted_iff.1 hhalted

end Sys2Proof.Machine
end

section
/-! ADD, MUL and CMP (43_alu.md R125 to R127): all three test the operand range, then operand 1, then operand 2, hand
the ALU the two registers and advance; they differ in what the ALU does. -/

namespace Sys2Proof.Machine

variable {xlen : Xlen} (s : State xlen)

/-! ### The shared part -/

section

variable (op : AluOp) {a b : Byte}

theorem aluInstruction_of_operands_past (h : 254 ≤ s.pc.toNat) :
    aluInstruction op a b s = raise .operandFetchOutOfRange s.pc.toNat s :=
  withOperands_past s _ (by omega)

theorem aluInstruction_of_operand1_gt (hpc : s.pc.toNat ≤ 253) (ha : 7 < a.toNat) :
    aluInstruction op a b s = raise .registerIndexOutOfRange a.toNat s :=
  withOperands_withReg_of_gt s _ (by omega) ha

/-- Operand 2 is tested only after operand 1 has named a register (R85). -/
theorem aluInstruction_of_operand2_gt (hpc : s.pc.toNat ≤ 253) (ha : a.toNat ≤ 7) (hb : 7 < b.toNat) :
    aluInstruction op a b s = raise .registerIndexOutOfRange b.toNat s := by
  rw [aluInstruction, withOperands_withReg_of_lt s _ (by omega) (Nat.lt_succ_of_le ha), withReg_of_gt s _ hb]

/-- With two registers: the ALU, then the default advance of the state it leaves. -/
theorem aluInstruction_of_lt (hpc : s.pc.toNat ≤ 253) (ha : a.toNat < 8) (hb : b.toNat < 8) :
    aluInstruction op a b s = advance 2 (aluExecute op ⟨a.toNat, ha⟩ ⟨b.toNat, hb⟩ s) := by
  rw [aluInstruction, withOperands_withReg_of_lt s _ (by omega) ha, withReg_of_lt s _ hb]

/-- What is left of an ALU instruction when the ALU has made `u` of the state: the advance, which runs past the end
only at pc 253, where `u` stands (R88, R89). -/
theorem aluInstruction_of_aluExecute_eq (ha : a.toNat < 8) (hb : b.toNat < 8) {u : State xlen}
    (hu : aluExecute op ⟨a.toNat, ha⟩ ⟨b.toNat, hb⟩ s = u) :
    (s.pc.toNat = 253 → aluInstruction op a b s = raise .pcOutOfRange 256 u) ∧
      (s.pc.toNat ≤ 252 → aluInstruction op a b s = .next (u.setPc (s.pc + 3))) := by
  have hupc : u.pc = s.pc := hu ▸ aluExecute_pc s op _ _
  refine ⟨fun hpc => ?_, fun hpc => ?_⟩
  · rw [aluInstruction_of_lt s op hpc.le ha hb, hu, advance_past u (by rw [hupc]; omega), hupc, hpc]
  · rw [aluInstruction_of_lt s op (by omega) ha hb, hu, ← hupc]
    exact advance_fits_add u (by rw [hupc]; omega)

end

/-! ### The ALU -/

/-- The word a register is left with is the one of the wrapped value (R121). -/
theorem narrow_eq_of_toNat_eq {n : Nat} {v : Word xlen} (h : v.toNat = n % 2 ^ xlen.bits) : narrow n = v :=
  BitVec.eq_of_toNat_eq ((narrow_toNat n).trans h.symm)

theorem aluExecute_add_eq_setReg {i j : RegIndex} {v : Word xlen}
    (hv : v.toNat = ((s.reg i).toNat + (s.reg j).toNat) % 2 ^ xlen.bits) : aluExecute .add i j s = s.setReg i v := by
  rw [aluExecute, narrow_eq_of_toNat_eq hv]

theorem aluExecute_mul_eq_setReg {i j : RegIndex} {v : Word xlen}
    (hv : v.toNat = ((s.reg i).toNat * (s.reg j).toNat) % 2 ^ xlen.bits) : aluExecute .mul i j s = s.setReg i v := by
  rw [aluExecute, narrow_eq_of_toNat_eq hv]

/-- CMP's choice of the flag as one chain of unsigned relations (R122, R125). -/
theorem Flags.compare_eq_ite (f : Flags) (v w : Word xlen) :
    f.compare v w =
      if v.toNat = w.toNat then { e := true, l := f.l, g := f.g }
      else if v.toNat < w.toNat then { e := f.e, l := true, g := f.g }
      else { e := f.e, l := f.l, g := true } := by
  rcases f.compare_cases v w with ⟨heq, hf⟩ | ⟨hlt, hf⟩ | ⟨hgt, hf⟩
  · rw [hf, if_pos heq]
  · rw [hf, if_neg hlt.ne, if_pos hlt]
  · rw [hf, if_neg hgt.ne', if_neg hgt.le.not_gt]

/-! ### The three instructions -/

/-- Settles O24: the shared tests in their order, then the flag of the true relation. -/
theorem cmpFollowsItsRule : Obligations.CmpFollowsItsRule := by
  intro a b s
  refine ⟨⟨rfl, decode_encode_append (.cmp a b)⟩, aluInstruction_of_operands_past s .cmp,
    aluInstruction_of_operand1_gt s .cmp, aluInstruction_of_operand2_gt s .cmp, fun ha hb fl hfl => ?_⟩
  have hcompare : s.fl.compare (s.reg ⟨a.toNat, ha⟩) (s.reg ⟨b.toNat, hb⟩) = fl :=
    (Flags.compare_eq_ite _ _ _).trans hfl.symm
  exact aluInstruction_of_aluExecute_eq s .cmp ha hb (congrArg s.setFlags hcompare)

/-- Settles O25: the shared tests in their order, then the wrapped sum. -/
theorem addFollowsItsRule : Obligations.AddFollowsItsRule := by
  intro a b s
  exact ⟨⟨rfl, decode_encode_append (.add a b)⟩, aluInstruction_of_operands_past s .add,
    aluInstruction_of_operand1_gt s .add, aluInstruction_of_operand2_gt s .add, fun ha hb _ hv =>
    aluInstruction_of_aluExecute_eq s .add ha hb (aluExecute_add_eq_setReg s hv)⟩

/-- Settles O26: the shared tests in their order, then the wrapped product. -/
theorem mulFollowsItsRule : Obligations.MulFollowsItsRule := by
  intro a b s
  exact ⟨⟨rfl, decode_encode_append (.mul a b)⟩, aluInstruction_of_operands_past s .mul,
    aluInstruction_of_operand1_gt s .mul, aluInstruction_of_operand2_gt s .mul, fun ha hb _ hv =>
    aluInstruction_of_aluExecute_eq s .mul ha hb (aluExecute_mul_eq_setReg s hv)⟩

end Sys2Proof.Machine
end

section
/-! JMP, JEQ and JNE (44_control_transfer.md R131 to R133): all three test the operand range, then the register index,
taken or not; a taken one loads the pc, an untaken one advances. They differ in what takes them. -/

namespace Sys2Proof.Machine

/-! ### The shared part -/

section

variable {xlen : Xlen} (s : State xlen) (taken : Bool) {r : Byte}

theorem branchInstruction_of_operand_past (hpc : s.pc.toNat = 255) :
    branchInstruction taken r s = raise .operandFetchOutOfRange 255 s := by
  rw [branchInstruction, withOperands_past s _ (by omega), hpc]

theorem branchInstruction_of_gt (hpc : s.pc.toNat ≤ 254) (hr : 7 < r.toNat) :
    branchInstruction taken r s = raise .registerIndexOutOfRange r.toNat s :=
  withOperands_withReg_of_gt s _ (by omega) hr

variable {taken}

/-- A taken transfer loads the pc with the register's value where that is a pc, and never advances: pc 254 is no
exception (R130, R134). -/
theorem branchInstruction_of_taken (hpc : s.pc.toNat ≤ 254) (hr : r.toNat < 8) (htaken : taken = true) {t : Pc}
    (ht : t.toNat = (s.reg ⟨r.toNat, hr⟩).toNat) : branchInstruction taken r s = .next (s.setPc t) := by
  have hfits : (s.reg ⟨r.toNat, hr⟩).toNat ≤ 255 := ht ▸ Nat.le_of_lt_succ t.isLt
  have hpcOf : BitVec.ofNat 8 (s.reg ⟨r.toNat, hr⟩).toNat = t := by rw [← ht, BitVec.ofNat_toNat, BitVec.setWidth_eq]
  rw [branchInstruction, withOperands_withReg_of_lt s _ (by omega) hr, if_pos htaken, transfer_fits s hfits, hpcOf]

theorem branchInstruction_of_untaken (hpc : s.pc.toNat ≤ 254) (hr : r.toNat ≤ 7) (htaken : taken = false) :
    branchInstruction taken r s = advance 1 s := by
  rw [branchInstruction, withOperands_withReg_of_lt s _ (by omega) (Nat.lt_succ_of_le hr),
    if_neg (Bool.eq_false_iff.1 htaken)]

theorem branchInstruction_of_untaken_past (hpc : s.pc.toNat = 254) (hr : r.toNat ≤ 7) (htaken : taken = false) :
    branchInstruction taken r s = raise .pcOutOfRange 256 s := by
  rw [branchInstruction_of_untaken s hpc.le hr htaken, advance_past s (by omega), hpc]

theorem branchInstruction_of_untaken_fits (hpc : s.pc.toNat ≤ 253) (hr : r.toNat ≤ 7) (htaken : taken = false) :
    branchInstruction taken r s = .next (s.setPc (s.pc + 2)) := by
  rw [branchInstruction_of_untaken s (by omega) hr htaken]
  exact advance_fits_add s (by omega)

end

/-! ### The three instructions -/

/-- Settles O27: the shared tests in their order; JMP is always taken. -/
theorem jmpFollowsItsRule : Obligations.JmpFollowsItsRule := by
  intro r s
  exact ⟨⟨rfl, decode_encode_append (.jmp r)⟩, branchInstruction_of_operand_past s true,
    branchInstruction_of_gt s true, fun hpc hr _ ht => branchInstruction_of_taken s hpc hr rfl ht⟩

/-- Settles O28: the shared tests in their order; JEQ is taken by E itself. -/
theorem jeqFollowsItsRule : Obligations.JeqFollowsItsRule := by
  intro r s
  exact ⟨⟨rfl, decode_encode_append (.jeq r)⟩, branchInstruction_of_operand_past s s.fl.e,
    branchInstruction_of_gt s s.fl.e, fun hpc hr _ he ht => branchInstruction_of_taken s hpc hr he ht,
    branchInstruction_of_untaken_past s, branchInstruction_of_untaken_fits s⟩

/-- Settles O29: the shared tests in their order; JNE is taken by the negation of E. -/
theorem jneFollowsItsRule : Obligations.JneFollowsItsRule := by
  intro r s
  exact ⟨⟨rfl, decode_encode_append (.jne r)⟩, branchInstruction_of_operand_past s (!s.fl.e),
    branchInstruction_of_gt s (!s.fl.e),
    fun hpc hr _ he ht => branchInstruction_of_taken s hpc hr (congrArg not he) ht,
    fun hpc hr he => branchInstruction_of_untaken_past s hpc hr (congrArg not he),
    fun hpc hr he => branchInstruction_of_untaken_fits s hpc hr (congrArg not he)⟩

end Sys2Proof.Machine
end

section
/-! Faults (60_exceptions.md R140, R148): which fault a step reports, and what it leaves standing. Both go by what a
fault that a step leaves says of the old state, `faultExplained_of_step`. -/

namespace Sys2Proof.Machine

variable {s t : State}

/-! ### The first condition that holds is the one reported -/

/-- HLT, the one opcode with no operand, is not among those whose operand 1 is an index. -/
theorem opcodeAt_ne_hlt_of_one_le_countAt (hn : 1 ≤ countAt s) : opcodeAt s ≠ 0x01#8 := by
  intro hop
  simp [countAt, hop] at hn

/-- With valid operands, and no default advance past the end, none of the four causes accounts for a fault. -/
theorem not_faultExplained_of_operandsValid (hrun : s.status = .running) (hop : opcodeAt s ∈ supportedBytes)
    (hv : Rule80.operandsValid s) (hnext : opcodeAt s = 0x01#8 ∨ takenAt s ∨ s.pc.toNat + countAt s ≤ 254)
    (c : Cause) (info : Nat) : ¬ FaultExplained s c info := by
  obtain ⟨hfits, h1, h2⟩ := hv
  intro hexplained
  cases c with
  | unsupportedOperation => exact hexplained.1 hop
  | operandFetchOutOfRange =>
    obtain ⟨-, hpast, -⟩ := hexplained
    omega
  | registerIndexOutOfRange =>
    obtain ⟨-, hne, -, hgt, rfl | ⟨halu, -, rfl⟩⟩ := hexplained
    · exact absurd (h1 (Rule80.one_le_countAt ⟨hrun, hop, hne, hfits⟩)) (Nat.not_le.2 hgt)
    · exact absurd (h2 halu) (Nat.not_le.2 hgt)
  | pcOutOfRange =>
    obtain ⟨-, hne, -, htarget⟩ := hexplained
    by_cases htaken : takenAt s
    · rw [if_pos htaken] at htarget
      have hle := Word.le_255 (regNamed s (operand1At s))
      omega
    · rw [if_neg htaken] at htarget
      rcases hnext with hhlt | htaken' | hle
      · exact hne hhlt
      · exact htaken htaken'
      · omega

/-- Settles O18: each of the five conditions by the rule about its own fault; where none holds, a fault would be one
that the old state does not account for. -/
theorem firstFaultConditionIsReported : Obligations.FirstFaultConditionIsReported := by
  intro s t hrun hstep
  have status_of_step {u : State} (hu : step s = .next u) : t.status = u.status :=
    congrArg State.status (Host.Outcome.next.inj (hstep.symm.trans hu))
  obtain ⟨hfetch, -⟩ := operandFetchPastTheEndRaises
  obtain ⟨hindex1, hindex2, -⟩ := registerIndexIsChecked
  obtain ⟨hadvance, -⟩ := advancePastTheEndRaises
  refine ⟨fun hop => ?_, fun hop hpast => ?_, fun hop hfits hn h1 => ?_, fun halu hfits h1 h2 => ?_,
    fun hop hne hv htaken hlast => ?_, fun hop hv hnext c info hst => ?_⟩
  · exact status_of_step (unsupportedOpcodeRaises s hrun hop)
  · exact status_of_step (hfetch s hrun hop hpast).1
  · exact status_of_step (hindex1 s hrun hop (opcodeAt_ne_hlt_of_one_le_countAt hn) hfits h1)
  · have hcount := (countAt_takenAt_of_aluAt halu).1
    exact status_of_step (hindex2 s hrun halu (hcount ▸ hfits) h1 h2)
  · exact status_of_step (hadvance s hrun hop hne htaken hv (by omega)).2
  · exact not_faultExplained_of_operandsValid hrun hop hv hnext c info (faultExplained_of_step hstep hst)

/-! ### A fault is precise -/

section

variable (hrun : s.status = .running) (hstep : step s = .next t)
include hrun hstep

/-- The faults of items 2, 3 and 5 of the step come before any effect. -/
theorem eq_setStatus_of_faulted {c : Cause} {info : Nat} (hst : t.status = .faulted c info) (hc : c ≠ .pcOutOfRange) :
    t = s.setStatus (.faulted c info) := by
  have hexplained := faultExplained_of_step hstep hst
  refine Host.Outcome.next.inj (hstep.symm.trans ?_)
  cases c with
  | unsupportedOperation =>
    obtain ⟨hop, rfl⟩ := hexplained
    exact unsupportedOpcodeRaises s hrun hop
  | operandFetchOutOfRange =>
    obtain ⟨hop, hpast, rfl⟩ := hexplained
    exact (operandFetchPastTheEndRaises.1 s hrun hop hpast).1
  | registerIndexOutOfRange =>
    obtain ⟨hindex1, hindex2, -⟩ := registerIndexIsChecked
    obtain ⟨hop, hne, hfits, hgt, rfl | ⟨halu, h1, rfl⟩⟩ := hexplained
    · exact hindex1 s hrun hop hne hfits hgt
    · have hcount := (countAt_takenAt_of_aluAt halu).1
      exact hindex2 s hrun halu (hcount ▸ hfits) h1 hgt
  | pcOutOfRange => exact absurd rfl hc

/-- `PcOutOfRange` comes last: a bad operand would have been reported instead. -/
theorem operandsValid_of_pcOutOfRange {info : Nat} (hst : t.status = .faulted .pcOutOfRange info) :
    Rule80.operandsValid s := by
  obtain ⟨hop, -, hfits, -⟩ := faultExplained_of_step hstep hst
  obtain ⟨-, -, hindex1, hindex2, -⟩ := firstFaultConditionIsReported s t hrun hstep
  have h1 (hn : 1 ≤ countAt s) : (operand1At s).toNat ≤ 7 := by
    by_contra hgt
    cases hst.symm.trans (hindex1 hop hfits hn (Nat.not_le.1 hgt))
  refine ⟨hfits, h1, fun halu => ?_⟩
  have hcount := (countAt_takenAt_of_aluAt halu).1
  by_contra hgt
  cases hst.symm.trans (hindex2 halu hfits (h1 (by omega)) (Nat.not_le.1 hgt))

/-- On this hardware `PcOutOfRange` is always that of the default advance, after which the effect stands (R89). -/
theorem eq_effect_of_pcOutOfRange {info : Nat} (hst : t.status = .faulted .pcOutOfRange info) :
    info = 256 ∧ t = (Rule80.effect s).setStatus (.faulted .pcOutOfRange 256) := by
  obtain ⟨hadvance, htransfer⟩ := advancePastTheEndRaises
  have hv := operandsValid_of_pcOutOfRange hrun hstep hst
  have htaken : ¬ takenAt s := fun htaken => htransfer s t hrun htaken hstep info hst
  obtain ⟨hop, hne, -, htarget⟩ := faultExplained_of_step hstep hst
  rw [if_neg htaken] at htarget
  obtain ⟨hlast, rfl⟩ := htarget
  exact ⟨rfl, Host.Outcome.next.inj (hstep.symm.trans (hadvance s hrun hop hne htaken hv (by omega)).2)⟩

end

/-- Settles O19: `raise` writes the status alone, and of the faults of a step only `PcOutOfRange` comes after the
effect, which moves no pc. -/
theorem faultsArePrecise : Obligations.FaultsArePrecise := by
  refine ⟨fun s c info => raise_eq_next s c info, fun s t c info hrun hstep hst => ?_⟩
  have heffect (hc : c = .pcOutOfRange) := eq_effect_of_pcOutOfRange hrun hstep (hc ▸ hst)
  have hpc : t.pc = s.pc := by
    by_cases hc : c = .pcOutOfRange
    · rw [(heffect hc).2, State.setStatus_pc, Rule80.effect_pc]
    · rw [eq_setStatus_of_faulted hrun hstep hst hc, State.setStatus_pc]
  exact ⟨hpc, step_imem hstep, eq_setStatus_of_faulted hrun hstep hst, heffect⟩

end Sys2Proof.Machine
end

section
/-! The decoder and the encoder are inverse to each other (30_encoding.md R60 to R71). -/

namespace Sys2Proof

open Sys2Proof.Machine

/-- Everything the decoder can answer to an opcode byte and the bytes after it. -/
theorem decode_cons_cases (op : Byte) (operands : List Byte) :
    (op ∉ supportedBytes ∧ decode (op :: operands) = .unsupported op) ∨
      (op ∈ supportedBytes ∧ decode (op :: operands) = .truncated) ∨
      (op ∈ supportedBytes ∧ ∃ i rest, op :: operands = encode i ++ rest ∧ decode (op :: operands) = .ok i rest) := by
  by_cases hop : op ∈ supportedBytes
  · obtain ⟨o, rfl⟩ := mem_supportedBytes_iff.1 hop
    by_cases hlen : operandCount o.byte ≤ operands.length
    · obtain ⟨i, rest, hi⟩ := exists_eq_encode_append hlen
      exact .inr (.inr ⟨hop, i, rest, hi, by rw [hi, decode_encode_append]⟩)
    · exact .inr (.inl ⟨hop, decode_of_missing_operands (Nat.not_le.1 hlen)⟩)
  · exact .inl ⟨hop, decode_of_not_supported hop operands⟩

/-- Settles O2: of the decoder's three answers only the one to an encoding is an instruction, and it is that one. -/
theorem decodeAcceptsExactlyTheEncodings : Obligations.DecodeAcceptsExactlyTheEncodings := by
  intro bytes rest i
  constructor
  · intro h
    cases bytes with
    | nil => cases h
    | cons op operands =>
      rcases decode_cons_cases op operands with ⟨-, hd⟩ | ⟨-, hd⟩ | ⟨-, i', rest', hbytes, hd⟩
      · cases hd.symm.trans h
      · cases hd.symm.trans h
      · cases hd.symm.trans h
        exact hbytes
  · rintro rfl
    exact decode_encode_append i rest

/-- No byte with operand count 3 is supported (R68). -/
theorem toNat_lt_192_of_supported {op : Byte} (h : op ∈ supportedBytes) : op.toNat < 192 := by
  obtain ⟨o, rfl⟩ := mem_supportedBytes_iff.1 h
  cases o <;> decide

/-- Settles O3: a supported opcode byte gets one of the decoder's other two answers. -/
theorem unsupportedExactlyOutsideTheNine : Obligations.UnsupportedExactlyOutsideTheNine := by
  intro op operands
  refine ⟨⟨fun h hop => ?_, fun h => decode_of_not_supported h operands⟩, fun hge => ?_⟩
  · rcases decode_cons_cases op operands with ⟨hnot, -⟩ | ⟨-, hd⟩ | ⟨-, i, rest, -, hd⟩
    · exact hnot hop
    · cases hd.symm.trans h
    · cases hd.symm.trans h
  · exact decode_of_not_supported (fun hop => Nat.not_le.2 (toNat_lt_192_of_supported hop) hge) operands

/-- Settles O4: the encoding is the opcode byte and the operand bytes it counts. -/
theorem encodedLengthIsOnePlusCount : Obligations.EncodedLengthIsOnePlusCount := by
  intro i
  refine ⟨i.opcode.byte, i.operandBytes, rfl, mem_supportedBytes_iff.2 ⟨_, rfl⟩, ?_, ?_⟩
  · rw [encode, List.length_cons, operandCount_opcode_byte, Nat.add_comm]
  · cases i.opcode <;> decide

/-- Settles O1: each row is the encoding of its instruction, whose count field counts its operand bytes. -/
theorem opcodeMapRowsDecode : Obligations.OpcodeMapRowsDecode :=
  ⟨decode_encode_append .hlt [], operandCount_opcode_byte .hlt,
    decode_encode_append (.ldi 7 255) [], operandCount_opcode_byte (.ldi 7 255),
    decode_encode_append (.prn 5) [], operandCount_opcode_byte (.prn 5),
    decode_encode_append (.add 1 2) [], operandCount_opcode_byte (.add 1 2),
    decode_encode_append (.mul 3 4) [], operandCount_opcode_byte (.mul 3 4),
    decode_encode_append (.cmp 6 7) [], operandCount_opcode_byte (.cmp 6 7),
    decode_encode_append (.jmp 3) [], operandCount_opcode_byte (.jmp 3),
    decode_encode_append (.jeq 2) [], operandCount_opcode_byte (.jeq 2),
    decode_encode_append (.jne 1) [], operandCount_opcode_byte (.jne 1)⟩

end Sys2Proof
end

section
/-! The effect of item 6 of the pseudocode (40_cycle.md R80), field by field: what it leaves alone, and who writes the
flags and the output. -/

namespace Sys2Proof.Rule80

open Sys2Proof.Machine

variable {xlen : Xlen} {s : State xlen}

@[simp] theorem effect_imem : (effect s).imem = s.imem := by
  simp only [effect]
  split_ifs <;> rfl

/-- Only CMP has an effect on the flags (10_state.md R28). -/
theorem effect_fl_of_ne_cmp (hop : opcodeAt s ≠ 0xA7#8) : (effect s).fl = s.fl := by
  simp only [effect, hop, if_false]
  split_ifs <;> rfl

/-- CMP's effect on the flags is the comparison of the two registers named (43_alu.md R125). -/
theorem effect_fl_of_cmp (hop : opcodeAt s = 0xA7#8) :
    (effect s).fl = s.fl.compare (regNamed s (operand1At s)) (regNamed s (operand2At s)) := by
  simp only [effect, hop, BitVec.reduceEq, ↓reduceIte, BitVec.toNat_inj, gt_iff_lt, Flags.compare]
  split_ifs <;> rfl

/-- Only PRN has an effect on the output (10_state.md R33). -/
theorem effect_out_of_ne_prn (hop : opcodeAt s ≠ 0x47#8) : (effect s).out = s.out := by
  simp only [effect, hop, if_false]
  split_ifs <;> rfl

theorem effect_out_of_prn (hop : opcodeAt s = 0x47#8) :
    (effect s).out = s.out ++ [regNamed s (operand1At s)] := by
  simp [effect, hop]

/-- The effect leaves the bytes at the pc as they are. -/
theorem bytesAt_effect :
    opcodeAt (effect s) = opcodeAt s ∧ operand1At (effect s) = operand1At s ∧
      operand2At (effect s) = operand2At s := by
  simp [opcodeAt, operand1At, operand2At]

/-- Whether a transfer is taken is the same after the effect: CMP, which writes flags, is no transfer. -/
theorem takenAt_effect : takenAt (effect s) = takenAt s := by
  have hop : opcodeAt (effect s) = opcodeAt s := bytesAt_effect.1
  by_cases hcmp : opcodeAt s = 0xA7#8
  · simp [takenAt, hop, hcmp]
  · rw [takenAt, hop, effect_fl_of_ne_cmp hcmp, takenAt]

end Sys2Proof.Rule80
end

section
/-! Everything a step can leave: one case for each way through the pseudocode of 40_cycle.md R80. -/

namespace Sys2Proof.Machine

variable {xlen : Xlen} {s t : State xlen}

/-- The ways a step from `s` can go, each with the state it leaves; which fault it is, `stepAt_status` says. -/
inductive StepOutcome (s : State xlen) : State xlen → Prop
  /-- HLT (R110). -/
  | halts (hop : opcodeAt s = 0x01#8) (p : Pc) : StepOutcome s ((s.setStatus .halted).setPc p)
  /-- A fault before any effect (R82, R83, R85), or that of a taken transfer (R134). -/
  | faults (c : Cause) (info : Nat) : StepOutcome s (s.setStatus (.faulted c info))
  /-- A taken transfer (R130). -/
  | transfers (htaken : takenAt s = true) (hfits : (regNamed s (operand1At s)).toNat ≤ 255) :
      StepOutcome s (s.setPc (BitVec.ofNat 8 (regNamed s (operand1At s)).toNat))
  /-- The instruction's effect, then the default advance (R88). -/
  | advances (hs : ExecutesNonHlt s) (hv : Rule80.operandsValid s) (htaken : ¬ takenAt s)
      (hfits : s.pc.toNat + 1 + countAt s ≤ 255) :
      StepOutcome s ((Rule80.effect s).setPc (BitVec.ofNat 8 (s.pc.toNat + 1 + countAt s)))
  /-- The instruction's effect, then the fault of the default advance (R89). -/
  | advancesPast (hs : ExecutesNonHlt s) (hv : Rule80.operandsValid s) (htaken : ¬ takenAt s) (c : Cause)
      (info : Nat) : StepOutcome s ((Rule80.effect s).setStatus (.faulted c info))

/-- Items 6 and 7 of the pseudocode. -/
theorem stepOutcome_effectAndNextPc (hs : ExecutesNonHlt s) (hv : Rule80.operandsValid s) :
    StepOutcome s (Rule80.effectAndNextPc s) := by
  rw [Rule80.effectAndNextPc]
  split_ifs with htaken hpast hpast
  · exact .faults _ _
  · exact .transfers htaken (Nat.not_lt.1 hpast)
  · exact .advancesPast hs hv htaken _ _
  · exact .advances hs hv htaken (Nat.not_lt.1 hpast)

/-- Items 5 to 7 of the pseudocode, HLT apart. -/
theorem stepOutcome_of_executes (hs : ExecutesNonHlt s) : StepOutcome s (Rule80.step s) := by
  rw [Rule80.step_of_executes hs]
  split_ifs with h1 h2
  · exact .faults _ _
  · exact .faults _ _
  · refine stepOutcome_effectAndNextPc hs ⟨hs.fits, fun _ => Nat.not_lt.1 h1, fun halu => ?_⟩
    exact Nat.not_lt.1 fun hgt => h2 ⟨halu, hgt⟩

/-- Everything a step can do. -/
theorem stepAt_outcome (h : stepAt s = .next t) : StepOutcome s t := by
  have hrun := stepAt_next_running s h
  obtain rfl : Rule80.step s = t := Host.Outcome.next.inj ((stepAt_eq_pseudocode hrun).symm.trans h)
  by_cases hop : opcodeAt s ∈ supportedBytes
  · by_cases hfits : s.pc.toNat + countAt s ≤ 255
    · by_cases hhlt : opcodeAt s = 0x01#8
      · rw [← Host.Outcome.next.inj (execHlt_eq_pseudocode hhlt)]
        exact .halts hhlt _
      · exact stepOutcome_of_executes ⟨hrun, hop, hhlt, hfits⟩
    · rw [Rule80.step_of_operands_past hop (Nat.not_le.1 hfits)]
      exact .faults _ _
  · rw [Rule80.step_of_not_supported hop]
    exact .faults _ _

theorem step_outcome {s t : State} (h : step s = .next t) : StepOutcome s t :=
  stepAt_outcome (step_eq_stepAt s ▸ h)

end Sys2Proof.Machine
end

section
/-! Every step keeps the invariant (42_halt.md R110, 60_exceptions.md R141). -/

namespace Sys2Proof.Machine

variable {xlen : Xlen} {s t : State xlen}

/-- Where no transfer is taken, a fault is accounted for by the pc and the store alone, which the effect keeps. -/
theorem faultExplained_effect (htaken : ¬ takenAt s) {c : Cause} {info : Nat} (h : FaultExplained s c info) :
    FaultExplained (Rule80.effect s) c info := by
  obtain ⟨hop, h1, h2⟩ := Rule80.bytesAt_effect (s := s)
  have hcount : countAt (Rule80.effect s) = countAt s := by rw [countAt, hop, countAt]
  have halu : aluAt (Rule80.effect s) = aluAt s := by rw [aluAt, hop, aluAt]
  cases c with
  | pcOutOfRange =>
    simp only [FaultExplained, hop, hcount, Rule80.effect_pc, Rule80.takenAt_effect, if_neg htaken] at h ⊢
    exact h
  | _ => simpa only [FaultExplained, hop, h1, h2, hcount, halu, Rule80.effect_pc] using h

/-- A fault the old state accounts for is one the state left behind accounts for. -/
theorem faultExplained_after_step (hstep : stepAt s = .next t) {c : Cause} {info : Nat}
    (hst : t.status = .faulted c info) (h : FaultExplained s c info) : FaultExplained t c info := by
  have hrun := stepAt_next_running s hstep
  cases stepAt_outcome hstep with
  | halts => cases hst
  | faults => exact h
  | transfers => simp [hrun] at hst
  | advances => simp [hrun] at hst
  | advancesPast _ _ htaken => exact faultExplained_effect htaken h

/-- A step keeps the invariant: the store stays, an HLT that halts is in it, and a fault's account still holds after
the step. -/
theorem stepAt_inv (hinv : Inv s) (hstep : stepAt s = .next t) : Inv t := by
  obtain ⟨hwf, -⟩ := hinv
  have himem := stepAt_imem hstep
  refine ⟨himem ▸ hwf, ?_⟩
  rcases stepAt_status hstep with ⟨hop, hst⟩ | ⟨-, hst | ⟨c, info, hst, hexplained⟩⟩
  · rw [hst]
    exact ⟨s.pc.toNat, Nat.le_of_lt_succ s.pc_lt, himem ▸ hop⟩
  · rw [hst]
    trivial
  · rw [hst]
    exact faultExplained_after_step hstep hst hexplained

/-- Settles O40: the step of this hardware is `stepAt` at its width. -/
theorem stepKeepsTheInvariant : Obligations.StepKeepsTheInvariant :=
  ⟨fun s _ hinv hstep => stepAt_inv hinv (step_eq_stepAt s ▸ hstep), fun _ _ _ => stepAt_inv⟩

end Sys2Proof.Machine
end

section
/-! The flags (10_state.md R27, R28): CMP alone writes them, it only raises them, and only `FL.E` is read. -/

namespace Sys2Proof.Machine

variable {xlen : Xlen} {s t : State xlen}

/-! ### Who writes them -/

/-- The flags a step leaves are the old ones or those of the instruction's effect. -/
theorem StepOutcome.fl_eq (h : StepOutcome s t) : t.fl = s.fl ∨ t.fl = (Rule80.effect s).fl := by
  cases h with
  | halts => exact .inl rfl
  | faults => exact .inl rfl
  | transfers => exact .inl rfl
  | advances => exact .inr rfl
  | advancesPast => exact .inr rfl

/-- Settles O42: of the effects only CMP's writes the flags. -/
theorem onlyCmpWritesFlags : Obligations.OnlyCmpWritesFlags := by
  intro s t hstep hop
  rcases (step_outcome hstep).fl_eq with h | h
  · exact h
  · exact h.trans (Rule80.effect_fl_of_ne_cmp hop)

/-! ### They are sticky -/

/-- Every flag that is 1 in `f` is 1 in `f'`. -/
def Flags.KeptBy (f f' : Flags) : Prop :=
  (f.e = true → f'.e = true) ∧ (f.l = true → f'.l = true) ∧ (f.g = true → f'.g = true)

theorem Flags.KeptBy.refl (f : Flags) : f.KeptBy f :=
  ⟨id, id, id⟩

theorem Flags.KeptBy.trans {f f' f'' : Flags} (h : f.KeptBy f') (h' : f'.KeptBy f'') : f.KeptBy f'' := by
  obtain ⟨he, hl, hg⟩ := h
  obtain ⟨he', hl', hg'⟩ := h'
  exact ⟨he' ∘ he, hl' ∘ hl, hg' ∘ hg⟩

theorem Flags.keptBy_compare (f : Flags) (a b : Word xlen) : f.KeptBy (f.compare a b) := by
  rw [Flags.compare_eq]
  exact ⟨fun h => by simp [h], fun h => by simp [h], fun h => by simp [h]⟩

theorem keptBy_effect_fl (s : State xlen) : s.fl.KeptBy (Rule80.effect s).fl := by
  by_cases hop : opcodeAt s = 0xA7#8
  · exact Rule80.effect_fl_of_cmp hop ▸ Flags.keptBy_compare s.fl _ _
  · exact Rule80.effect_fl_of_ne_cmp hop ▸ .refl s.fl

theorem StepOutcome.keptBy_fl (h : StepOutcome s t) : s.fl.KeptBy t.fl := by
  rcases h.fl_eq with h | h
  · exact h ▸ .refl s.fl
  · exact h ▸ keptBy_effect_fl s

/-- Settles O43: a step clears no flag, so a run clears none. -/
theorem flagsAreSticky : Obligations.FlagsAreSticky :=
  runsTo_induction (P := fun s t => s.fl.KeptBy t.fl) (fun s => .refl s.fl) fun _ _ _ hstep ih =>
    (step_outcome hstep).keptBy_fl.trans ih

/-- Settles O45: E is still 1 at the later branch, which takes a JEQ and no JNE. -/
theorem equalFlagSettlesEveryLaterBranch : Obligations.EqualFlagSettlesEveryLaterBranch := by
  intro k s t u he hrun hstep hu
  have het : t.fl.e = true := (flagsAreSticky k s t hrun).1 he
  have htrun := step_next_running hstep
  cases step_outcome hstep with
  | halts => cases hu
  | faults => cases hu
  | advancesPast => cases hu
  | transfers htaken hfits =>
    refine ⟨fun _ => Nat.mod_eq_of_lt (Nat.lt_succ_of_le hfits), fun hop => ?_⟩
    simp [takenAt, hop, het] at htaken
  | advances hs hv htaken hfits =>
    refine ⟨fun hop => ?_, fun hop => ?_⟩
    · simp [takenAt, hop, het] at htaken
    · have hcount : countAt t = 1 := by simp [countAt, hop]
      rw [hcount] at hfits ⊢
      exact Nat.mod_eq_of_lt (Nat.lt_succ_of_le hfits)

/-! ### Only E is read -/

/-- `s` and `s'` are equal but for `FL.L` and `FL.G`. -/
def EqualButLG (s s' : State xlen) : Prop :=
  { s' with fl := s.fl } = s ∧ s'.fl.e = s.fl.e

theorem equalButLG_iff {s s' : State xlen} :
    EqualButLG s s' ↔ s'.x = s.x ∧ s'.pc = s.pc ∧ s'.status = s.status ∧ s'.imem = s.imem ∧ s'.out = s.out ∧
      s'.fl.e = s.fl.e := by
  cases s
  simp only [EqualButLG, State.mk.injEq, true_and, and_assoc]

/-- Machines equal but for L and G make equal steps, but for L and G: a step reads neither (R91). -/
theorem EqualButLG.exists_stepAt {s' : State xlen} (h : EqualButLG s s') (hstep : stepAt s = .next t) :
    ∃ t', stepAt s' = .next t' ∧ EqualButLG t t' := by
  obtain ⟨hx, hpc, hst, himem, hout, he⟩ := equalButLG_iff.1 h
  have hfetch : fetchBytes s = fetchBytes s' := fetchBytes_congr hpc.symm fun _ _ _ => by rw [himem]
  obtain ⟨u, t', hu, ht', halike⟩ :=
    stepAt_alike (.refl hx.symm hpc.symm he.symm hst.symm) (stepAt_next_running s hstep) hfetch
  cases hu.symm.trans hstep
  obtain ⟨printed, hprinted, hprinted'⟩ := halike.out
  exact ⟨t', ht', equalButLG_iff.2 ⟨halike.x.symm, halike.pc.symm, halike.status.symm,
    by rw [halike.imem, halike.imem', himem], by rw [hprinted, hprinted', hout], halike.e.symm⟩⟩

/-- A run has its like from a machine that differs in L and G only, step by step. -/
theorem EqualButLG.exists_runsTo {k : Nat} {s s' t : State} (h : EqualButLG s s') (hrun : RunsTo k s t) :
    ∃ t', RunsTo k s' t' ∧ EqualButLG t t' := by
  induction k generalizing s s' with
  | zero => exact ⟨s', rfl, hrun ▸ h⟩
  | succ k ih =>
    obtain ⟨u, hstep, hrun⟩ := hrun
    obtain ⟨u', hstep', hu⟩ := h.exists_stepAt (step_eq_stepAt s ▸ hstep)
    obtain ⟨t', hrun', ht⟩ := ih hu hrun
    exact ⟨t', ⟨u', (step_eq_stepAt s').trans hstep', hrun'⟩, ht⟩

/-- Settles O44: being equal but for L and G is kept along the two runs. -/
theorem lessAndGreaterNeverInfluenceARun : Obligations.LessAndGreaterNeverInfluenceARun :=
  fun _ _ _ _ heq he hrun => EqualButLG.exists_runsTo ⟨heq, he⟩ hrun

end Sys2Proof.Machine
end

section
/-! How a step goes on from the one before: only a RUNNING machine has one, and HALTED is entered at an HLT alone
(40_cycle.md R90, R91, 00_scope.md R14). -/

namespace Sys2Proof.Machine

/-- Settles O11. -/
theorem stepExistsExactlyWhenRunning : Obligations.StepExistsExactlyWhenRunning :=
  fun _ => step_exists_next_iff

/-- Settles O47: the run has a last step, since it did not begin HALTED, and that step went from RUNNING to HALTED. -/
theorem haltedOnlyByExecutingHlt : Obligations.HaltedOnlyByExecutingHlt := by
  intro k s t hs hrun hhalted
  obtain ⟨-, htransition, hterminal⟩ := statusTransitions
  refine ⟨?_, fun u => hterminal t u (by simp [hhalted])⟩
  cases k with
  | zero =>
    obtain rfl : s = t := hrun
    cases hs.symm.trans hhalted
  | succ j =>
    obtain ⟨u, hu, hstep⟩ := runsTo_succ_last.1 hrun
    obtain ⟨hurun, hhalted_iff, -⟩ := htransition u t hstep
    exact ⟨j, u, rfl, hu, hurun, hhalted_iff.1 hhalted, hstep⟩

/-- Settles O9: the step by what was fetched, at the default width and at every other. -/
theorem stepRunsTheDecodedInstruction : Obligations.StepRunsTheDecodedInstruction := by
  refine ⟨fun s i rest hrun hdecode => ?_, fun xlen s i rest => stepAt_of_ok s⟩
  rw [step_eq_stepAt, exec_eq_execute]
  exact stepAt_of_ok s hrun hdecode

/-- Settles O51. -/
theorem hardwareIsTheDefaultWidth : Obligations.HardwareIsTheDefaultWidth :=
  ⟨rfl, exec_eq_execute, step_eq_stepAt, rfl, Xlen.eight_le⟩

end Sys2Proof.Machine
end

section
/-! The Output Sink (10_state.md R33): PRN alone writes it. -/

namespace Sys2Proof.Machine

variable {xlen : Xlen} {s t : State xlen}

/-- What the effect of an instruction with valid operands does to the output. -/
theorem effect_out_cases (hs : ExecutesNonHlt s) (hv : Rule80.operandsValid s) :
    (Rule80.effect s).out = s.out ∨ (opcodeAt s = 0x47#8 ∧ (operand1At s).toNat ≤ 7 ∧
      (Rule80.effect s).out = s.out ++ [regNamed s (operand1At s)]) := by
  obtain ⟨-, h1, -⟩ := hv
  by_cases hop : opcodeAt s = 0x47#8
  · exact .inr ⟨hop, h1 (Rule80.one_le_countAt hs), Rule80.effect_out_of_prn hop⟩
  · exact .inl (Rule80.effect_out_of_ne_prn hop)

/-- Settles O46: a step prints what its effect prints. -/
theorem outputGrowsOnlyByPrn : Obligations.OutputGrowsOnlyByPrn := by
  intro s t hstep
  cases step_outcome hstep with
  | halts => exact .inl rfl
  | faults => exact .inl rfl
  | transfers => exact .inl rfl
  | advances hs hv => exact effect_out_cases hs hv
  | advancesPast hs hv => exact effect_out_cases hs hv

end Sys2Proof.Machine
end

section
/-! The taken transfer for every width (44_control_transfer.md R130, R134). -/

namespace Sys2Proof.Machine

variable {xlen : Xlen} {s : State xlen}

/-- A target that is a pc is not truncated. -/
theorem toNat_ofNat_of_le_255 {n : Nat} (h : n ≤ 255) : (BitVec.ofNat 8 n : Pc).toNat = n :=
  Nat.mod_eq_of_lt (Nat.lt_succ_of_le h)

/-- Settles O36: a register of this hardware is as wide as the pc; a wider one is compared with 255 first. -/
theorem transferTargetRange : Obligations.TransferTargetRange := by
  refine ⟨fun t s => ⟨t, rfl, transfer_word t s⟩, fun xlen t s => ⟨transfer_past s, fun hle => ?_⟩⟩
  exact ⟨_, toNat_ofNat_of_le_255 hle, transfer_fits s hle⟩

section

variable (hrun : s.status = .running) (htaken : takenAt s = true) (hv : Rule80.operandsValid s)
include hrun htaken hv

theorem stepAt_of_taken_past (hgt : 255 < (regNamed s (operand1At s)).toNat) :
    stepAt s = raise .pcOutOfRange (regNamed s (operand1At s)).toNat s := by
  rw [stepAt_eq_pseudocode hrun, Rule80.step_of_taken_past (executesNonHlt_of_takenAt hrun htaken hv.1) hv htaken hgt,
    raise_eq_next]

theorem stepAt_of_taken_fits {p : Pc} (hp : p.toNat = (regNamed s (operand1At s)).toNat) :
    stepAt s = .next (s.setPc p) := by
  have hle : (regNamed s (operand1At s)).toNat ≤ 255 := hp ▸ Nat.le_of_lt_succ p.isLt
  rw [stepAt_eq_pseudocode hrun, Rule80.step_of_taken_fits (executesNonHlt_of_takenAt hrun htaken hv.1) hv htaken hle,
    ← hp, BitVec.ofNat_toNat, BitVec.setWidth_eq]

end

/-- Settles O52: the taken transfer of the pseudocode, on either side of 255. -/
theorem takenTransferForEveryWidth : Obligations.TakenTransferForEveryWidth := by
  refine ⟨fun xlen s hrun htaken hv => ⟨stepAt_of_taken_past hrun htaken hv, fun hle => ?_⟩,
    fun s => Word.le_255 _⟩
  have hp := toNat_ofNat_of_le_255 hle
  exact ⟨_, hp, stepAt_of_taken_fits hrun htaken hv hp⟩

/-- A control transfer has one operand. -/
theorem countAt_of_takenAt (htaken : takenAt s = true) : countAt s = 1 := by
  simp only [takenAt, Bool.or_eq_true, Bool.and_eq_true, beq_iff_eq] at htaken
  rcases htaken with (h | ⟨h, -⟩) | ⟨h, -⟩ <;> simp [countAt, h]

theorem operandsValid_of_takenAt (htaken : takenAt s = true) (hpc : s.pc.toNat ≤ 254)
    (h1 : (operand1At s).toNat ≤ 7) : Rule80.operandsValid s := by
  have hcount := countAt_of_takenAt htaken
  refine ⟨by omega, fun _ => h1, fun halu => ?_⟩
  simp [(countAt_takenAt_of_aluAt halu).2] at htaken

/-- A state whose step leads back to it runs in place. -/
theorem runsTo_self {s : State} (h : step s = .next s) (k : Nat) : RunsTo k s s := by
  induction k with
  | zero => rfl
  | succ k ih => exact ⟨s, h, ih⟩

/-- Settles O37: the step writes the pc it had, so every run leads back. -/
theorem branchToItselfLoopsForever : Obligations.BranchToItselfLoopsForever := by
  intro s hrun htaken hpc h1 hself
  have hstep : step s = .next s := by
    rw [step_eq_stepAt]
    exact stepAt_of_taken_fits hrun htaken (operandsValid_of_takenAt htaken hpc h1) hself.symm
  exact ⟨runsTo_self hstep, fun k => ⟨s, runsTo_self hstep k, hrun⟩⟩

end Sys2Proof.Machine
end

section
/-! Frames: what an instruction leaves unchanged. Each acts on registers, flags or output and then leaves all of them
to the choice of the next pc, or raises a fault before it acts. -/

namespace Sys2Proof.Machine

variable {xlen : Xlen} {s t : State xlen}

/-! ### The choice of the next pc, and faults -/

/-- `t` is `s` but for the pc, or for the status of a fault. -/
structure KeepsData (s t : State xlen) : Prop where
  x : t.x = s.x
  fl : t.fl = s.fl
  out : t.out = s.out
  imem : t.imem = s.imem
  status : t.status = s.status ∨ (t.pc = s.pc ∧ ∃ c info, t.status = .faulted c info)

theorem keepsData_setPc (s : State xlen) (p : Pc) : KeepsData s (s.setPc p) :=
  ⟨rfl, rfl, rfl, rfl, .inl rfl⟩

theorem keepsData_fault (s : State xlen) (c : Cause) (info : Nat) : KeepsData s (s.setStatus (.faulted c info)) :=
  ⟨rfl, rfl, rfl, rfl, .inr ⟨rfl, c, info, rfl⟩⟩

theorem KeepsData.reg (h : KeepsData s t) (j : RegIndex) : t.reg j = s.reg j := by
  rw [State.reg, h.x, State.reg]

theorem KeepsData.status_or_faulted (h : KeepsData s t) : t.status = s.status ∨ ∃ c info, t.status = .faulted c info :=
  h.status.imp_right And.right

theorem advance_keepsData {n : Nat} (h : advance n s = .next t) : KeepsData s t := by
  rcases advance_next s h with ⟨-, rfl⟩ | ⟨-, rfl⟩
  · exact keepsData_setPc s _
  · exact keepsData_fault s _ _

theorem branchInstruction_keepsData {taken : Bool} {r : Byte} (h : branchInstruction taken r s = .next t) :
    KeepsData s t := by
  rcases branchInstruction_next s h with ⟨_, -, -, -, rfl⟩ | ⟨-, -, rfl⟩ | ⟨_, _, rfl⟩
  · exact keepsData_setPc s _
  · exact keepsData_setPc s _
  · exact keepsData_fault s _ _

/-! ### The instructions that act before they advance -/

theorem aluInstruction_keepsData {op : AluOp} {a b : Byte} (h : aluInstruction op a b s = .next t) :
    KeepsData s t ∨ ∃ i j : RegIndex, i.val = a.toNat ∧ KeepsData (aluExecute op i j s) t := by
  rcases aluInstruction_next s h with ⟨i, j, hi, -, -, h⟩ | ⟨_, _, -, rfl⟩
  · exact .inr ⟨i, j, hi, advance_keepsData h⟩
  · exact .inl (keepsData_fault s _ _)

/-- An instruction that tests its operands' range and its first operand, acts on that register and advances. -/
theorem withOperands_withReg_keepsData {n : Nat} {o : Byte} {act : RegIndex → State xlen}
    (h : withOperands n s (withReg o s fun i => advance n (act i)) = .next t) :
    KeepsData s t ∨ ∃ i : RegIndex, i.val = o.toNat ∧ KeepsData (act i) t := by
  rcases withOperands_next s h with ⟨-, h⟩ | ⟨-, rfl⟩
  · rcases withReg_next s h with ⟨i, hi, h⟩ | ⟨-, rfl⟩
    · exact .inr ⟨i, hi, advance_keepsData h⟩
    · exact .inl (keepsData_fault s _ _)
  · exact .inl (keepsData_fault s _ _)

/-- LDI, ADD and MUL write their first operand's register at most. -/
theorem execute_registerWriter_keepsData {i : Instr} {r o : Byte} (hi : i = .ldi r o ∨ i = .add r o ∨ i = .mul r o)
    (h : execute i s = .next t) :
    KeepsData s t ∨ ∃ (j : RegIndex) (v : Word xlen), j.val = r.toNat ∧ KeepsData (s.setReg j v) t := by
  rcases hi with rfl | rfl | rfl
  · exact (withOperands_withReg_keepsData h).imp_right fun ⟨j, hj, hk⟩ => ⟨j, _, hj, hk⟩
  · exact (aluInstruction_keepsData (op := .add) h).imp_right fun ⟨j, _, hj, hk⟩ => ⟨j, _, hj, hk⟩
  · exact (aluInstruction_keepsData (op := .mul) h).imp_right fun ⟨j, _, hj, hk⟩ => ⟨j, _, hj, hk⟩

/-- Settles O31: a register write changes one register and nothing else, and the rest keeps the data. -/
theorem registerWritersFrame : Obligations.RegisterWritersFrame := by
  intro i r o s t hi hexec
  rw [exec_eq_execute] at hexec
  rcases execute_registerWriter_keepsData hi hexec with h | ⟨k, v, hk, h⟩
  · exact ⟨fun j _ => h.reg j, h.fl, h.out, fun a => by rw [h.imem], h.status_or_faulted⟩
  · refine ⟨fun j hj => ?_, h.fl, h.out, fun a => by rw [h.imem, State.setReg_imem], h.status_or_faulted⟩
    have hjk : j ≠ k := fun e => hj (e ▸ hk)
    rw [h.reg, State.reg_setReg_other s v hjk]

/-- Settles O32: CMP writes the flags at most, and one of them. -/
theorem cmpFrame : Obligations.CmpFrame := by
  intro a b s t hexec
  rcases aluInstruction_keepsData (op := .cmp) hexec with h | ⟨i, j, -, h⟩
  · exact ⟨h.reg, h.out, fun c => by rw [h.imem], h.status_or_faulted, .inl h.fl⟩
  · refine ⟨h.reg, h.out, fun c => by rw [h.imem, aluExecute_imem], h.status_or_faulted, .inr ?_⟩
    have hfl : t.fl = s.fl.compare (s.reg i) (s.reg j) := h.fl
    rcases s.fl.compare_cases (s.reg i) (s.reg j) with ⟨-, hc⟩ | ⟨-, hc⟩ | ⟨-, hc⟩
    · exact .inl (hfl.trans hc)
    · exact .inr (.inl (hfl.trans hc))
    · exact .inr (.inr (hfl.trans hc))

/-- Settles O33: PRN appends the register its operand names, if it names one. -/
theorem prnFrame : Obligations.PrnFrame := by
  intro r s t hexec
  rcases withOperands_withReg_keepsData (act := fun i => s.emit (s.reg i)) hexec with h | ⟨i, hi, h⟩
  · exact ⟨h.reg, h.fl, fun a => by rw [h.imem], h.status_or_faulted, .inl h.out⟩
  · exact ⟨h.reg, h.fl, fun a => by rw [h.imem, State.emit_imem], h.status_or_faulted, .inr ⟨i, hi, h.out⟩⟩

/-- Settles O34: the three transfers do nothing but choose the next pc. -/
theorem controlTransferFrame : Obligations.ControlTransferFrame := by
  intro i r s t hi hexec
  have h : KeepsData s t := by
    rcases hi with rfl | rfl | rfl
    · exact branchInstruction_keepsData (taken := true) hexec
    · exact branchInstruction_keepsData (taken := s.fl.e) hexec
    · exact branchInstruction_keepsData (taken := !s.fl.e) hexec
  exact ⟨h.reg, h.fl, h.out, fun a => by rw [h.imem], h.status⟩

/-- Settles O35: HLT writes the status and the pc. -/
theorem hltFrame : Obligations.HltFrame := by
  intro s t hexec
  obtain rfl := Host.Outcome.next.inj ((execHlt_eq_next s).symm.trans hexec)
  exact ⟨fun _ => rfl, rfl, rfl, fun _ => rfl⟩

/-! ### What LDI and ADD leave in the register -/

/-- Settles O53: the write of the immediate is kept by the advance. -/
theorem ldiKeepsTheImmediateForEveryWidth : Obligations.LdiKeepsTheImmediateForEveryWidth := by
  intro xlen r imm s hr hpc
  obtain ⟨t, ht⟩ := execute_exists_next s (.ldi r imm)
  have hx : t.x = s.x.set r.toNat (BitVec.ofNat xlen.bits imm.toNat) :=
    (advance_keepsData ((execLdi_of_lt s imm hpc hr).symm.trans ht)).x
  refine ⟨t, ht, ?_⟩
  simp only [hx, Vector.getElem_set_self, ← immediate_eq_ofNat, immediate_toNat]

/-- Settles O49: 255 is -1 modulo 256. -/
theorem adding255CountsDown : Obligations.Adding255CountsDown := by
  intro a b s ha hb hpc hxb
  have hsum : (s.x[a.toNat] - 1).toNat = (s.x[a.toNat].toNat + s.x[b.toNat].toNat) % 2 ^ Config.xlen.bits := by
    rw [hxb, BitVec.toNat_sub, Nat.add_comm]
    rfl
  obtain ⟨-, -, -, -, hadd⟩ := addFollowsItsRule a b s
  obtain ⟨-, hfits⟩ := hadd ha hb _ hsum
  exact ⟨_, hfits hpc, by simp⟩

end Sys2Proof.Machine
end

section
/-! Every instruction goes on (40_cycle.md R88, R91): with valid operands and room for the pc none faults. -/

namespace Sys2Proof.Machine

variable {xlen : Xlen} (s : State xlen)

theorem advance_status {n : Nat} (h : s.pc.toNat + 1 + n ≤ 255) :
    ∃ t, advance n s = .next t ∧ t.status = s.status :=
  ⟨_, advance_fits s h, rfl⟩

theorem aluInstruction_status (op : AluOp) {a b : Byte} (hpc : s.pc.toNat ≤ 252) (ha : a.toNat < 8)
    (hb : b.toNat < 8) : ∃ t, aluInstruction op a b s = .next t ∧ t.status = s.status := by
  obtain ⟨-, hfits⟩ := aluInstruction_of_aluExecute_eq s op ha hb rfl
  exact ⟨_, hfits hpc, aluExecute_status s op _ _⟩

theorem branchInstruction_status (s : State) (taken : Bool) {r : Byte} (hpc : s.pc.toNat ≤ 253) (hr : r.toNat < 8) :
    ∃ t, branchInstruction taken r s = .next t ∧ t.status = s.status := by
  cases taken with
  | true => exact ⟨_, branchInstruction_of_taken s (by omega) hr rfl rfl, rfl⟩
  | false => exact ⟨_, branchInstruction_of_untaken_fits s hpc (Nat.le_of_lt_succ hr) rfl, rfl⟩

/-- The status an instruction leaves when nothing can fault. -/
theorem exec_status {i : Instr} {s : State} (hwf : i.wellFormed = true)
    (hpc : s.pc.toNat + (encode i).length ≤ 255) :
    ∃ t, exec i s = .next t ∧ t.status = (if i = .hlt then .halted else s.status) := by
  cases i with
  | hlt => exact ⟨_, execHlt_eq_next s, rfl⟩
  | ldi r imm =>
    have hr : r.toNat < 8 := by simpa [Instr.wellFormed, Instr.indexOperands] using hwf
    have hpc : s.pc.toNat + 3 ≤ 255 := hpc
    rw [exec, execLdi_of_lt s imm (by omega) hr]
    exact advance_status _ (by rw [State.setReg_pc]; omega)
  | prn r =>
    have hr : r.toNat < 8 := by simpa [Instr.wellFormed, Instr.indexOperands] using hwf
    have hpc : s.pc.toNat + 2 ≤ 255 := hpc
    rw [exec, execPrn_of_lt s (by omega) hr]
    exact advance_status _ (by rw [State.emit_pc]; omega)
  | add a b | mul a b | cmp a b =>
    obtain ⟨ha, hb⟩ : a.toNat < 8 ∧ b.toNat < 8 := by simpa [Instr.wellFormed, Instr.indexOperands] using hwf
    exact aluInstruction_status s _ (Nat.le_of_add_le_add_right hpc) ha hb
  | jmp r | jeq r | jne r =>
    have hr : r.toNat < 8 := by simpa [Instr.wellFormed, Instr.indexOperands] using hwf
    exact branchInstruction_status s _ (Nat.le_of_add_le_add_right hpc) hr

/-- Settles O30. -/
theorem everyInstructionAnswersANextState : Obligations.EveryInstructionAnswersANextState := by
  refine ⟨fun i s => ?_, fun xlen i s => execute_exists_next s i, fun i s hwf hrun hpc => ?_⟩
  · rw [exec_eq_execute]
    exact execute_exists_next s i
  · exact hrun ▸ exec_status hwf hpc

end Sys2Proof.Machine
end

section
/-! Loading and the first step (70_reset_and_hazards.md R170 to R173). -/

namespace Sys2Proof.Machine

variable {xlen : Xlen}

/-- Settles O6: nothing is loaded, and nothing else is nonzero. -/
theorem resetStateIsZeroFilled : Obligations.ResetStateIsZeroFilled :=
  ⟨State.construct_reg, rfl, rfl, rfl, rfl, fun _ => rfl⟩

theorem hostReset_of_gt {image : List Byte} (s : State xlen) (h : 256 < image.length) :
    hostReset image s = .refused (.imageTooLong image.length) :=
  if_neg (Nat.not_le.2 h)

/-- Settles O7. -/
theorem overlongImageIsRefused : Obligations.OverlongImageIsRefused :=
  fun _ _ s => hostReset_of_gt s

/-- Everything reset can answer with a state: the image fitted, and is loaded. -/
theorem hostReset_next {image : List Byte} {s t : State xlen} (h : hostReset image s = .next t) :
    image.length ≤ 256 ∧ t = { State.construct xlen with imem := Memory.ofBytesAt 0 image } := by
  by_cases hle : image.length ≤ 256
  · rw [hostReset_of_le s hle] at h
    exact ⟨hle, (Host.Outcome.next.inj h).symm⟩
  · rw [hostReset_of_gt s (Nat.not_le.1 hle)] at h
    cases h

/-- A RUNNING state meets the invariant when its store is canonical. -/
theorem inv_of_running {s : State xlen} (hwf : s.imem.wf) (hrun : s.status = .running) : Inv s := by
  refine ⟨hwf, ?_⟩
  rw [hrun]
  trivial

/-- Settles O38. -/
theorem invariantHoldsAtReset : Obligations.InvariantHoldsAtReset :=
  inv_of_running State.reset_imem_wf rfl

/-- Settles O39: a loaded image that fits is a canonical store. -/
theorem invariantHoldsAfterLoading : Obligations.InvariantHoldsAfterLoading := by
  intro xlen image s t h
  obtain ⟨hle, rfl⟩ := hostReset_next h
  exact inv_of_running (Memory.ofBytesAt_wf (by omega)) rfl

/-- Settles O8: the store reads as the image from address 0 on, and the pc is there. -/
theorem firstFetchIsAtAddressZero : Obligations.FirstFetchIsAtAddressZero := by
  intro image s t h
  obtain ⟨-, rfl⟩ := hostReset_next h
  have hread (a : Nat) : (Memory.ofBytesAt 0 image).read a = image.getD a 0 := by simp [Memory.read_ofBytesAt]
  refine ⟨rfl, ?_, fun hop => ?_⟩
  · rw [fetchBytes_three _ (Nat.zero_le _)]
    exact congrArg₂ List.cons (hread 0) (congrArg₂ List.cons (hread 1) (congrArg (· :: []) (hread 2)))
  · rw [← hread 0] at hop ⊢
    exact unsupportedOpcodeRaises _ rfl hop

/-- Three bytes stored at a pc that has room for them are what the next step fetches. -/
theorem fetchBytes_storeAtPc {s : State xlen} (hwf : s.imem.wf) (hpc : s.pc.toNat ≤ 253) (b₀ b₁ b₂ : Byte) :
    fetchBytes (storeAtPc [b₀, b₁, b₂] s) = [b₀, b₁, b₂] := by
  rw [fetchBytes_three (storeAtPc _ s) hpc]
  simp [opcodeAt, operand1At, operand2At, storeAtPc, Memory.read_writeBytes hwf [b₀, b₁, b₂] (by simp; omega)]

theorem decode_of_decodeTableWord {nbits w : Nat} {i : Instr} (h : decodeTableWord nbits w = some i) :
    ∃ rest, decode (tableBytes nbits w) = .ok i rest := by
  rw [decodeTableWord] at h
  split at h
  next j rest hd =>
    cases h
    exact ⟨rest, hd⟩
  · cases h
  · cases h

/-- Settles O50: the bytes of the word are the bytes fetched. -/
theorem storedWordIsTheNextInstruction : Obligations.StoredWordIsTheNextInstruction := by
  intro nbits w i h
  obtain ⟨rest, hdecode⟩ := decode_of_decodeTableWord h
  refine stepRunsTheDecodedInstruction.1 _ i rest rfl ?_
  rw [← hdecode, tableBytes_eq]
  exact congrArg decode (fetchBytes_storeAtPc State.reset_imem_wf (by decide) _ _ _)

end Sys2Proof.Machine
end
